-- ==== Sys2Proof/Word.lean ====
section
/-! DEFINITION. The word types of the block and the character codes its rules name (00_scope.md R6, R9). -/

namespace Sys2Proof

/-- A character or a byte: 8 bits each (R6). -/
abbrev Byte := BitVec 8

/-- A configuration register, an extracted address or a record index: 32 bits (R6, R7, R23). -/
abbrev Word := BitVec 32

/-- A sequence of characters, index 0 first (R10): a raw line, a line, or the part of a line after its marker. -/
abbrev Line := List Byte

/-- `'S'`, the marker letter (R9). -/
abbrev codeS : Byte := 0x53#8

/-- Carriage return (R9). -/
abbrev codeCR : Byte := 0x0D#8

/-- Line feed (R9). -/
abbrev codeLF : Byte := 0x0A#8

end Sys2Proof
end

