-- ==== Sys2Proof/Config.lean ====
section
/-! DEFINITION. The open parameters of the spec: `LMAX` and `DMAX` of the block (R7), the CRC parameters of the annex
(R8, R287), and the outcomes the spec leaves at `any value` (93_implementation_defined.md U14). An `opaque` constant
has no body: nothing can be proved of its value. -/

namespace Sys2Proof.Config

/-- Half of what `LMAX` has above its least value 514.
R7 leaves `LMAX` open, even and at least 514: every such `LMAX` is `514 + 2 * n` for one `n`. -/
opaque lmaxSlack : Nat

/-- The longest line, in characters after stripping, that the block processes (R7): even and at least 514. -/
def LMAX : Nat := 514 + 2 * lmaxSlack

/-- The capacity of the data output buffer in bytes (R7). -/
def DMAX : Nat := (LMAX - 10) / 2

/-- A line of `n` characters is longer than `LMAX` (R254).
Written so that a line of at most 514 characters is seen to fit without knowing `lmaxSlack`. -/
def overlong (n : Nat) : Bool := decide (2 * lmaxSlack < n - 514)

/-- `CRC_INIT` (R8, R287): the source does not give it. -/
opaque crcInit : BitVec 16

/-- `CRC_REFIN` (R8, R287): whether each input byte is bit-reflected; the source does not say. -/
opaque crcRefIn : Bool

/-- `CRC_REFOUT` (R8, R287): whether the result is bit-reflected; the source does not say. -/
opaque crcRefOut : Bool

/-- `CRC_XOROUT` (R8, R287): the source does not give it. -/
opaque crcXorOut : BitVec 16

/-- What a `write` does to an annex image whose `offset + size` exceeds `2^32`, by offset, size, fill byte, buffer cells,
address and data: `any value` (U14). `none` is a failure; `some (cells, n)` new cells and a returned count. -/
opaque oversizeImageWrite : Word → Word → Byte → List (Nat × Byte) → Word → List Byte → Option (List (Nat × Byte) × Word)

/-- What `loadFile` returns when the bytes written number `2^32` or more, by that number: `any value` (U14). -/
opaque totalBytesOverflow : Nat → Word

end Sys2Proof.Config
end

