-- ==== Sys2Proof/Syntax.lean ====
section
/-! DEFINITION. The instructions: one S-record line each (00_scope.md R3), one constructor per row of
spec/opcode_table.json. The type is selected by the marker alone, whatever follows it (R95), so an instruction
carries all the characters after its marker, well formed or not. -/

namespace Sys2Proof

/-- One S-record line with a good marker (R94, R95). `body` is the stripped line from index 2 on. -/
inductive Instr where
  /-- `S0`, header (R221). -/
  | s0 (body : Line)
  /-- `S1`, data record with a 16-bit address (R201). -/
  | s1 (body : Line)
  /-- `S2`, data record with a 24-bit address (R202). -/
  | s2 (body : Line)
  /-- `S3`, data record with a 32-bit address (R203). -/
  | s3 (body : Line)
  /-- `S4`, reserved (R226). -/
  | s4 (body : Line)
  /-- `S5`, record count (R222). -/
  | s5 (body : Line)
  /-- `S6`, reserved (R227). -/
  | s6 (body : Line)
  /-- `S7`, start/termination address (R223). -/
  | s7 (body : Line)
  /-- `S8`, start/termination address (R224). -/
  | s8 (body : Line)
  /-- `S9`, start/termination address (R225). -/
  | s9 (body : Line)
deriving DecidableEq, Repr

/-- The characters after the marker. -/
def Instr.body : Instr → Line
  | .s0 b => b
  | .s1 b => b
  | .s2 b => b
  | .s3 b => b
  | .s4 b => b
  | .s5 b => b
  | .s6 b => b
  | .s7 b => b
  | .s8 b => b
  | .s9 b => b

end Sys2Proof
end

