-- ==== Sys2Proof/WellFormed.lean ====
section
/-! DEFINITION. Which instructions are lines the block processes: a stripped line (R91) of at most `LMAX` characters
(R7, R256). -/

namespace Sys2Proof

/-- A line terminator character: CR or LF (R91). -/
def isTerminator (c : Byte) : Bool := c == codeCR || c == codeLF

/-- The characters after the marker do not end in a terminator, so stripping the line takes nothing off it (R91). -/
def Instr.isStripped (i : Instr) : Bool :=
  match i.body.getLast? with
  | none => true
  | some c => !isTerminator c

/-- The whole line, marker included, is at most `LMAX` characters long (R7, R254). -/
def Instr.fitsLine (i : Instr) : Bool := !Config.overlong (i.body.length + 2)

/-- An instruction as the block meets one: a stripped line that fits. -/
def Instr.wellFormed (i : Instr) : Bool := i.isStripped && i.fitsLine

end Sys2Proof
end

