-- ==== Sys2Proof/Decode.lean ====
section
/-! DEFINITION. From the raw characters of a line to an instruction, and back: terminator stripping (R91), the marker
(R94), the opcode map (R95, R111), and the encoder. -/

namespace Sys2Proof

/-- `strip(raw)`: `raw` without its maximal suffix of CR and LF characters (R10, R91). -/
def strip : Line → Line
  | [] => []
  | c :: cs =>
    match strip cs with
    | [] => if isTerminator c then [] else [c]
    | d :: ds => c :: d :: ds

/-- Why a line is not a record (R94, R104, R228, R229). -/
inductive NotARecord where
  /-- The stripped line is empty (R229). -/
  | emptyLine
  /-- The stripped line is one character (R228). -/
  | loneCharacter (c : Byte)
  /-- The first character is not an upper-case `S` (R94). -/
  | badLetter (c : Byte)
  /-- The second character is not a digit `0` to `9` (R94). -/
  | badTypeDigit (c : Byte)
deriving DecidableEq, Repr

/-- One row of the opcode map: a line is the row's when `word &&& mask = pattern` for its marker word (R111). -/
structure OpcodeRow where
  pattern : BitVec 16
  mask : BitVec 16
  make : Line → Instr

/-- The opcode map (R95, R111; spec/opcode_table.json). -/
def opcodeRows : List OpcodeRow :=
  [⟨0x5330#16, 0xFFFF#16, .s0⟩, ⟨0x5331#16, 0xFFFF#16, .s1⟩, ⟨0x5332#16, 0xFFFF#16, .s2⟩,
   ⟨0x5333#16, 0xFFFF#16, .s3⟩, ⟨0x5334#16, 0xFFFF#16, .s4⟩, ⟨0x5335#16, 0xFFFF#16, .s5⟩,
   ⟨0x5336#16, 0xFFFF#16, .s6⟩, ⟨0x5337#16, 0xFFFF#16, .s7⟩, ⟨0x5338#16, 0xFFFF#16, .s8⟩,
   ⟨0x5339#16, 0xFFFF#16, .s9⟩]

/-- The marker word `{ln[0], ln[1]}`, the first character in bits 15:8 (R111). -/
def markerWord (first second : Byte) : BitVec 16 := first ++ second

/-- The row a marker word selects. -/
def rowOf (w : BitVec 16) : Option OpcodeRow := opcodeRows.find? fun r => w &&& r.mask == r.pattern

/-- The instruction a stripped line is, or why it is none (R94, R95, R104). -/
def classify : Line → Except NotARecord Instr
  | [] => .error .emptyLine
  | [c] => .error (.loneCharacter c)
  | first :: second :: body =>
    match rowOf (markerWord first second) with
    | some row => .ok (row.make body)
    | none => .error (if first == codeS then .badTypeDigit second else .badLetter first)

/-- The instruction in the raw characters of a line, terminators and all (R90, R91, R95). -/
def decode (raw : Line) : Except NotARecord Instr := classify (strip raw)

/-- The type digit of an instruction's marker (R95). -/
def Instr.typeDigit : Instr → Byte
  | .s0 _ => 0x30#8
  | .s1 _ => 0x31#8
  | .s2 _ => 0x32#8
  | .s3 _ => 0x33#8
  | .s4 _ => 0x34#8
  | .s5 _ => 0x35#8
  | .s6 _ => 0x36#8
  | .s7 _ => 0x37#8
  | .s8 _ => 0x38#8
  | .s9 _ => 0x39#8

/-- The line of an instruction: `S`, the type digit, and the rest (R92, R103). -/
def encode (i : Instr) : Line := codeS :: i.typeDigit :: i.body

/-- The characters of a word of the opcode table. The table's unit is a 16-bit word whose first character is in
bits 15:8 (R111); a later word would stand in the next 16 bits. Bits from `nbits` up are 0. -/
def tableLine (nbits w : Nat) : Line :=
  (List.range (max 1 ((nbits + 15) / 16))).flatMap fun k =>
    let word := (w % 2 ^ nbits) / 2 ^ (16 * k)
    [BitVec.ofNat 8 (word / 256), BitVec.ofNat 8 word]

/-- The instruction the decoder reads from a word of the opcode table: the line of just the word's characters. -/
def decodeTableWord (nbits w : Nat) : Option Instr :=
  match decode (tableLine nbits w) with
  | .ok i => some i
  | .error _ => none

end Sys2Proof
end

