-- ==== Sys2Proof/Machine/State.lean ====
section
/-! DEFINITION. The state of the block (10_state.md R21) as plain data, with the host's side of its channels
(the events still to come and the values handed back), and the state after reset (R37). -/

namespace Sys2Proof.Machine

/-- The reasons a check fails (R320). -/
inductive FailureKind where
  | formatError
  | lengthError
  | rangeError
  | checksumError
deriving DecidableEq, Repr

/-- The decoder's error reasons (R170, R175). -/
inductive DecodeError where
  | badMarker
  | unsupportedType
  | badLength
  | invalidHexDigit
deriving DecidableEq, Repr

/-- The decoder's outcome (R170): the response fields `d_kind`, `d_err`, `d_addr`, `d_len` and `d_data`, with `DBUF`
the data bytes (R30, R32). -/
inductive DecodeOutcome where
  | decoded (addr : Word) (data : List Byte)
  | skip
  | error (reason : DecodeError)
deriving DecidableEq, Repr

/-- `d_kind` (R30). -/
inductive DecodeKind where
  | decoded
  | skip
  | error
deriving DecidableEq, Repr

/-- `kind` (R30). -/
inductive ResponseKind where
  | processed
  | overrun
deriving DecidableEq, Repr

/-- What a response says of its line. A field the spec says is not valid has no place here (R30, U7). -/
inductive ResponseBody where
  /-- A processed line (R255). -/
  | processed (vOk : Bool) (vReasons : BitVec 4) (outcome : DecodeOutcome) (xAddr : Option Word)
  /-- A line longer than `LMAX` (R256). -/
  | overrun
deriving DecidableEq, Repr

/-- `RSP`, the response for one line (R30). -/
structure Response where
  ridx : Word
  body : ResponseBody
deriving DecidableEq, Repr

/-- What the host can do to the block (R251). Each is atomic, and the events of one block are totally ordered. -/
inductive Event where
  /-- `Reset` (R360). -/
  | reset
  /-- `CfgWrite(n, v)` (R252). -/
  | cfgWrite (n : BitVec 2) (v : Word)
  /-- `CfgRead(n)` (R258). -/
  | cfgRead (n : BitVec 2)
  /-- `PushChar(c)` (R253). -/
  | pushChar (c : Byte)
  /-- `EndRecord` (R254). -/
  | endRecord
  /-- `ReadData(k)` (R257). -/
  | readData (k : Nat)
  /-- `TakeResponse` (R257). -/
  | takeResponse
deriving DecidableEq, Repr

/-- What an event hands back to the host. -/
inductive Reply where
  /-- `CfgRead` returns a register value (R258). -/
  | config (v : Word)
  /-- `ReadData` returns a byte, or no value (R257). -/
  | data (b : Option Byte)
  /-- `TakeResponse` returns the response (R257). -/
  | response (r : Response)
deriving DecidableEq, Repr

/-- The state. The first six fields are the block's (R21), `RSP_VALID` being whether `rsp` holds a response;
the last two are the model's own and stand for the host (R20, R22). -/
structure State where
  /-- `CTRL`, register 0 (R24). -/
  ctrl : Word
  /-- `RMIN`, register 1 (R25). -/
  rmin : Word
  /-- `RMAX`, register 2 (R26). -/
  rmax : Word
  /-- `RAW`, the characters pushed since the last end of record (R28). -/
  raw : Line
  /-- `RSP` with its data buffer `DBUF`; `none` when `RSP_VALID = 0`, where `RSP` has no value (R29, R30, R32). -/
  rsp : Option Response
  /-- `RIDX`, the record index (R31). -/
  ridx : Word
  /-- The host's events still to come, in their total order (R251). -/
  events : List Event
  /-- What the host has been handed, oldest first (R264). -/
  replies : List Reply
deriving DecidableEq, Repr

/-- The block raises no fault: no condition it detects stops it or changes its control state (R260, R330, R374). A step
that ended in a fault would have to name a constructor here, and there is none. -/
inductive Fault where
deriving DecidableEq, Repr

/-- Why an instruction gets no meaning. -/
inductive Refusal where
  /-- Raised by an arm of `exec` whose instruction has no meaning yet (safe: it proves nothing). No arm raises it now. -/
  | notModelled (mnemonic : String)
deriving DecidableEq, Repr

/-- The state after reset (R37, R360): no data record can pass, nothing is pushed, nothing waits. The model's own two
fields are empty: the host has caused no event yet. -/
def State.reset : State where
  ctrl := 0#32
  rmin := 0xFFFFFFFF#32
  rmax := 0x00000000#32
  raw := []
  rsp := none
  ridx := 0#32
  events := []
  replies := []

/-- `RSP_VALID` (R29). -/
def State.rspValid (s : State) : Bool := s.rsp.isSome

end Sys2Proof.Machine
end

