-- ==== Sys2Proof/Machine/Operands.lean ====
section
/-! DEFINITION. How the fields of a line are read: hex primitives (00_scope.md R11), the type (R13, R94), the byte count
(R96), the address (R97, R171), the data (R98), the checksum (R99); and the fields of `CTRL` (R24). -/

namespace Sys2Proof.Machine

/-- `hexval(c)` (R11): upper-case and lower-case digits both. -/
def hexval (c : Byte) : Option Nat :=
  if 0x30#8 ≤ c ∧ c ≤ 0x39#8 then some (c.toNat - 0x30)
  else if 0x41#8 ≤ c ∧ c ≤ 0x46#8 then some (c.toNat - 0x41 + 10)
  else if 0x61#8 ≤ c ∧ c ≤ 0x66#8 then some (c.toNat - 0x61 + 10)
  else none

/-- `ishex(c)` (R11). -/
def ishex (c : Byte) : Bool := (hexval c).isSome

/-- Two characters as one 8-bit value, the first the high nibble (R11, R64). -/
def hexPair (hi lo : Byte) : Option Byte :=
  match hexval hi, hexval lo with
  | some h, some l => some (BitVec.ofNat 8 (16 * h + l))
  | _, _ => none

/-- `pair(ln, i)` (R11). -/
def pair (ln : Line) (i : Nat) : Option Byte :=
  match ln[i]?, ln[i + 1]? with
  | some hi, some lo => hexPair hi lo
  | _, _ => none

/-- The number whose hex digits, most significant first, are `acc`'s and then these characters (R11, R65). -/
def hexDigits (acc : Nat) : Line → Option Nat
  | [] => some acc
  | c :: cs =>
    match hexval c with
    | some d => hexDigits (16 * acc + d) cs
    | none => none

/-- `hexnum(ln, a, n)` (R11). -/
def hexnum (ln : Line) (a n : Nat) : Option Nat :=
  if a + n ≤ ln.length then hexDigits 0 ((ln.drop a).take n) else none

/-- Characters cut into hex-pairs: `none` when their number is odd or one of them is not hex (R68, R135). -/
def hexPairs : Line → Option (List Byte)
  | [] => some []
  | [_] => none
  | hi :: lo :: cs =>
    match hexPair hi lo, hexPairs cs with
    | some b, some bs => some (b :: bs)
    | _, _ => none

/-- Every character from index 2 on is hex (R100, R135, R174). -/
def hexAfterMarker (ln : Line) : Bool := (ln.drop 2).all ishex

/-- `marker_ok(ln)` (R94). -/
def markerOk : Line → Bool
  | c :: d :: _ => c == codeS && (0x30#8 ≤ d && d ≤ 0x39#8)
  | _ => false

/-- `TYPE`, the type number `t = ln[1] - 0x30`, when the marker is good (R13, R33, R94). -/
def recType (ln : Line) : Option (BitVec 4) :=
  if markerOk ln then (ln[1]?).map fun d => (d - 0x30#8).setWidth 4 else none

/-- `isData(t)` (R13). -/
def isData (t : BitVec 4) : Bool := t == 1#4 || t == 2#4 || t == 3#4

/-- `W(t)`, the address width in characters, for a data type (R13). -/
def addrChars (t : BitVec 4) : Option Nat :=
  if t = 1#4 then some 4 else if t = 2#4 then some 6 else if t = 3#4 then some 8 else none

/-- `A(t)`, the address width in bytes, for a data type (R13). -/
def addrBytes (t : BitVec 4) : Option Nat := (addrChars t).map (· / 2)

/-- `LCNT`, the stripped length `L` (R33). -/
def lineCount (ln : Line) : Nat := ln.length

/-- The CR and LF characters an on-the-fly stripper holds back (R36): a function of `RAW`. -/
def withheldTerminators (raw : Line) : Nat := raw.length - (strip raw).length

/-- `BC`, the declared byte count (R33, R96). -/
def byteCount (ln : Line) : Option Byte := pair ln 2

/-- `CKEMB`, the embedded checksum: the last hex-pair, when there is a count pair before it and `L` is even (R33, R99). -/
def embeddedChecksum (ln : Line) : Option Byte :=
  if 6 ≤ ln.length ∧ ln.length % 2 = 0 then pair ln (ln.length - 2) else none

/-- `extract_addr(ln)` (R97, R171): the field must lie wholly before the checksum pair. -/
def extractAddr (ln : Line) : Option Word :=
  match (recType ln).bind addrChars with
  | none => none
  | some w =>
    if ln.length < 4 + w + 2 then none
    else (hexnum ln 4 w).map (BitVec.ofNat 32)

/-- The data field of a line whose address is `w` characters wide: every hex-pair between the address and the checksum,
in line order (R98). -/
def dataField (ln : Line) (w : Nat) : Option (List Byte) :=
  hexPairs ((ln.drop (4 + w)).take (ln.length - 4 - w - 2))

/-- `CTRL.EXPTYPE`, bits 3:0 (R24). -/
def expType (ctrl : Word) : BitVec 4 := ctrl.extractLsb' 0 4

/-- `CTRL.STOP`, bit 4 (R24). -/
def stopBit (ctrl : Word) : Bool := ctrl.getLsbD 4

/-- The bits of `CTRL` that hold something: 4:0; the others read as 0 and ignore writes (R24, R252). -/
def ctrlMask : Word := 0x0000001F#32

end Sys2Proof.Machine
end

