-- ==== Sys2Proof/Machine/Flags.lean ====
section
/-! DEFINITION. The validator (40_validator.md): the checksum arithmetic, the four checks, and the verdict in collect and
stop mode with its four failure flags (10_state.md R34). -/

namespace Sys2Proof.Machine

/-- `SUM`: the sum of the bytes, of which the low 8 bits are kept (R135, R139). -/
def sumBytes (bs : List Byte) : Byte := bs.foldl (· + ·) 0#8

/-- `CKCALC = (~SUM) & 0xFF` (R33, R135). -/
def calcChecksum (bs : List Byte) : Byte := ~~~(sumBytes bs)

/-- FormatCheck passes (R132). -/
def formatCheck (ln : Line) (exptype : BitVec 4) : Bool :=
  match recType ln with
  | none => false
  | some t => !(isData t && t != exptype)

/-- LengthCheck passes (R133). -/
def lengthCheck (ln : Line) : Bool :=
  if ln.length < 4 then false
  else if ln.length % 2 = 1 then false
  else
    match byteCount ln with
    | none => false
    | some bc => bc.toNat == (ln.length - 4) / 2

/-- AddressCheck passes (R134): unsigned, both bounds inclusive. -/
def addressCheck (ln : Line) (rmin rmax : Word) : Bool :=
  match recType ln with
  | none => false
  | some t =>
    if !isData t then true
    else
      match extractAddr ln with
      | none => false
      | some a => rmin ≤ a && a ≤ rmax

/-- ChecksumCheck passes (R135): the marker is not summed, the last pair is compared. -/
def checksumCheck (ln : Line) : Bool :=
  if ln.length < 6 ∨ ln.length % 2 = 1 then false
  else if !hexAfterMarker ln then false
  else
    match hexPairs (ln.drop 2) with
    | none => false
    | some bs => some (calcChecksum bs.dropLast) == bs.getLast?

/-- The four checks' failures, in the fixed order (R136, R137). -/
structure CheckFailures where
  fmt : Bool
  len : Bool
  rng : Bool
  chk : Bool
deriving DecidableEq, Repr

/-- All four checks on one line (R137). -/
def checkAll (ln : Line) (exptype : BitVec 4) (rmin rmax : Word) : CheckFailures where
  fmt := !formatCheck ln exptype
  len := !lengthCheck ln
  rng := !addressCheck ln rmin rmax
  chk := !checksumCheck ln

/-- `v_reasons[3:0]` with bit 0 `FMT`, 1 `LEN`, 2 `RNG`, 3 `CHK` (R34). -/
def CheckFailures.mask (f : CheckFailures) : BitVec 4 :=
  BitVec.ofBool f.chk ++ BitVec.ofBool f.rng ++ BitVec.ofBool f.len ++ BitVec.ofBool f.fmt

/-- Collect mode: every failing reason (R137). -/
def collectReasons (f : CheckFailures) : BitVec 4 := f.mask

/-- Stop mode: the first failing check's reason alone (R138). -/
def stopReasons (f : CheckFailures) : BitVec 4 :=
  if f.fmt then 0b0001#4
  else if f.len then 0b0010#4
  else if f.rng then 0b0100#4
  else if f.chk then 0b1000#4
  else 0#4

/-- The validator's verdict (R130): `v_ok` and `v_reasons`. -/
structure Verdict where
  vOk : Bool
  vReasons : BitVec 4
deriving DecidableEq, Repr

/-- The verdict of the four checks' failures by mode: `v_ok` is 1 exactly when no reason is set (R137, R138). -/
def verdictOf (stop : Bool) (f : CheckFailures) : Verdict :=
  let reasons := if stop then stopReasons f else collectReasons f
  { vOk := reasons == 0#4, vReasons := reasons }

/-- `validate(ln, EXPTYPE, RMIN, RMAX, STOP)` (R130, R136 to R138). -/
def validate (ln : Line) (exptype : BitVec 4) (rmin rmax : Word) (stop : Bool) : Verdict :=
  verdictOf stop (checkAll ln exptype rmin rmax)

/-- The bit of a failure kind in `v_reasons` (R34). -/
def FailureKind.bit : FailureKind → Nat
  | .formatError => 0
  | .lengthError => 1
  | .rangeError => 2
  | .checksumError => 3

/-- The source's list of reasons: the set bits in ascending order, which is the check order (R34). -/
def reasonList (reasons : BitVec 4) : List FailureKind :=
  [FailureKind.formatError, .lengthError, .rangeError, .checksumError].filter fun k => reasons.getLsbD k.bit

end Sys2Proof.Machine
end

