-- ==== Sys2Proof/Machine/RecordDecoder.lean ====
section
/-! DEFINITION. The decoder unit (41_decoder.md): type recognition, the `Skip` outcome, the data records' address and data,
and the four error reasons in their order. -/

namespace Sys2Proof.Machine

/-- `decode_data(ln, t)` for an address of `w` characters (R174). The last arm is the `InvalidHexDigit` of a field that
cannot be converted; the test before it leaves no line for it. -/
def decodeData (ln : Line) (w : Nat) : DecodeOutcome :=
  if ln.length < 4 + w + 2 ∨ ln.length % 2 = 1 then .error .badLength
  else if !hexAfterMarker ln then .error .invalidHexDigit
  else
    match hexnum ln 4 w, dataField ln w with
    | some a, some ds => .decoded (BitVec.ofNat 32 a) ds
    | _, _ => .error .invalidHexDigit

/-- `decode(ln)` (R170, R173): decided by the marker for the non-data types; `S4` and `S6` are refused (R108). -/
def decodeRecord (ln : Line) : DecodeOutcome :=
  match recType ln with
  | none => .error .badMarker
  | some t =>
    match addrChars t with
    | some w => decodeData ln w
    | none => if t = 4#4 ∨ t = 6#4 then .error .unsupportedType else .skip

end Sys2Proof.Machine
end

