-- ==== Sys2Proof/Machine/Ops.lean ====
section
/-! DEFINITION. The named operations over the state: the configuration registers (R23 to R27), the line buffer (R28), the
response for a line and its data buffer (R29, R30, R32, R254 to R257), the record index (R31).

The block takes no exception: what it detects is reported in the response of the line, and nothing else changes
(60_exceptions.md R327, R330). `State.report` is that one shared operation; there is no return beside it (R331). -/

namespace Sys2Proof.Machine

/-- `kind` (R30). -/
def Response.kind (r : Response) : ResponseKind :=
  match r.body with
  | .processed _ _ _ _ => .processed
  | .overrun => .overrun

/-- `v_ok` (R30), valid when the line was processed. -/
def Response.vOk (r : Response) : Option Bool :=
  match r.body with
  | .processed ok _ _ _ => some ok
  | .overrun => none

/-- `v_reasons` (R30), valid when the line was processed. -/
def Response.vReasons (r : Response) : Option (BitVec 4) :=
  match r.body with
  | .processed _ reasons _ _ => some reasons
  | .overrun => none

/-- The decoder's outcome, present when the line was processed (R30). -/
def Response.outcome (r : Response) : Option DecodeOutcome :=
  match r.body with
  | .processed _ _ o _ => some o
  | .overrun => none

/-- `x_addr` (R30, R172): `none` also where the line was not processed. -/
def Response.xAddr (r : Response) : Option Word :=
  match r.body with
  | .processed _ _ _ x => x
  | .overrun => none

/-- `d_kind` (R30), valid when the line was processed. -/
def Response.dKind (r : Response) : Option DecodeKind :=
  match r.outcome with
  | some (.decoded _ _) => some .decoded
  | some .skip => some .skip
  | some (.error _) => some .error
  | none => none

/-- `d_err` (R30), valid when `d_kind = Error`. -/
def Response.dErr (r : Response) : Option DecodeError :=
  match r.outcome with
  | some (.error e) => some e
  | _ => none

/-- `d_addr` (R30), valid when `d_kind = Decoded`. -/
def Response.dAddr (r : Response) : Option Word :=
  match r.outcome with
  | some (.decoded a _) => some a
  | _ => none

/-- `d_data`, the bytes of `DBUF` that have a value (R30, R32), valid when `d_kind = Decoded`. -/
def Response.dData (r : Response) : Option (List Byte) :=
  match r.outcome with
  | some (.decoded _ ds) => some ds
  | _ => none

/-- `d_len` (R30), valid when `d_kind = Decoded`. -/
def Response.dLen (r : Response) : Option Nat := r.dData.map List.length

/-- `ProcessedResponse(ln, CTRL, RMIN, RMAX, r)` (R255): both units on one snapshot. -/
def processedResponse (ln : Line) (ctrl rmin rmax : Word) (ridx : Word) : Response :=
  let v := validate ln (expType ctrl) rmin rmax (stopBit ctrl)
  { ridx := ridx, body := .processed v.vOk v.vReasons (decodeRecord ln) (extractAddr ln) }

/-- `OverrunResponse(r)` (R256). -/
def overrunResponse (ridx : Word) : Response := { ridx := ridx, body := .overrun }

/-- The response for a line under the present configuration (R254): an overrun pre-empts both units (R328). -/
def lineResponse (ln : Line) (s : State) : Response :=
  if Config.overlong ln.length then overrunResponse s.ridx
  else processedResponse ln s.ctrl s.rmin s.rmax s.ridx

/-- Holds a response: `RSP <- r`, `RSP_VALID <- 1`, `RAW <- []` (R254). -/
def State.report (s : State) (r : Response) : State := { s with rsp := some r, raw := [] }

/-- What `EndRecord` does for the stripped line `ln` (R254): every record's meaning is this on its own line. -/
def State.respond (s : State) (ln : Line) : State := s.report (lineResponse ln s)

/-- `x[n]`: the value of configuration register `n` (R12, R258); the reserved bits and register 3 read as 0 (R24, R27). -/
def State.cfgRead (s : State) (n : BitVec 2) : Word :=
  match n.toNat with
  | 0 => s.ctrl &&& ctrlMask
  | 1 => s.rmin
  | 2 => s.rmax
  | _ => 0#32

/-- `x[n] <- v` (R12, R252); register 3 ignores the write (R27). -/
def State.cfgWrite (s : State) (n : BitVec 2) (v : Word) : State :=
  match n.toNat with
  | 0 => { s with ctrl := v &&& ctrlMask }
  | 1 => { s with rmin := v }
  | 2 => { s with rmax := v }
  | _ => s

/-- `RAW <- RAW ++ [c]` (R253). -/
def State.pushRaw (s : State) (c : Byte) : State := { s with raw := s.raw ++ [c] }

/-- `DBUF[k]` (R32, R257): a value only where the pending response decoded and `k < d_len`. -/
def State.dbuf (s : State) (k : Nat) : Option Byte :=
  match s.rsp with
  | none => none
  | some r => r.dData.bind fun ds => ds[k]?

/-- `RSP_VALID <- 0` and `RIDX <- (RIDX + 1) mod 2^32` (R31, R257). -/
def State.retire (s : State) : State := { s with rsp := none, ridx := s.ridx + 1#32 }

/-- Hands a value back to the host. -/
def State.reply (s : State) (r : Reply) : State := { s with replies := s.replies ++ [r] }

/-- Every piece of the block's state at its reset value (R37, R360); the host keeps what it has and what it will do. -/
def State.resetBlock (s : State) : State :=
  { State.reset with events := s.events, replies := s.replies }

end Sys2Proof.Machine
end

