-- ==== Sys2Proof/Machine/DataRecords.lean ====
section
/-! DEFINITION. The data records (42_data_records.md): `S1`, `S2`, `S3`. -/

namespace Sys2Proof.Machine

/-- `S1`: data record, 16-bit address (R200, R201). -/
def execS1 (body : Line) (s : State) : Host.Outcome State Fault Refusal :=
  .next (s.respond (encode (.s1 body)))

/-- `S2`: data record, 24-bit address (R200, R202). -/
def execS2 (body : Line) (s : State) : Host.Outcome State Fault Refusal :=
  .next (s.respond (encode (.s2 body)))

/-- `S3`: data record, 32-bit address (R200, R203). -/
def execS3 (body : Line) (s : State) : Host.Outcome State Fault Refusal :=
  .next (s.respond (encode (.s3 body)))

end Sys2Proof.Machine
end

