-- ==== Sys2Proof/Machine/NonDataRecords.lean ====
section
/-! DEFINITION. The non-data records (43_nondata_records.md): `S0`, `S5`, `S7`, `S8`, `S9` and the reserved `S4`, `S6`. -/

namespace Sys2Proof.Machine

/-- `S0`: header (R220, R221). -/
def execS0 (body : Line) (s : State) : Host.Outcome State Fault Refusal :=
  .next (s.respond (encode (.s0 body)))

/-- `S4`: reserved; the validator judges it, the decoder refuses it (R108, R220, R226). -/
def execS4 (body : Line) (s : State) : Host.Outcome State Fault Refusal :=
  .next (s.respond (encode (.s4 body)))

/-- `S5`: record count (R220, R222). -/
def execS5 (body : Line) (s : State) : Host.Outcome State Fault Refusal :=
  .next (s.respond (encode (.s5 body)))

/-- `S6`: reserved; the validator judges it, the decoder refuses it (R108, R220, R227). -/
def execS6 (body : Line) (s : State) : Host.Outcome State Fault Refusal :=
  .next (s.respond (encode (.s6 body)))

/-- `S7`: start/termination address (R220, R223). -/
def execS7 (body : Line) (s : State) : Host.Outcome State Fault Refusal :=
  .next (s.respond (encode (.s7 body)))

/-- `S8`: start/termination address (R220, R224). -/
def execS8 (body : Line) (s : State) : Host.Outcome State Fault Refusal :=
  .next (s.respond (encode (.s8 body)))

/-- `S9`: start/termination address (R220, R225). -/
def execS9 (body : Line) (s : State) : Host.Outcome State Fault Refusal :=
  .next (s.respond (encode (.s9 body)))

end Sys2Proof.Machine
end

