-- ==== Sys2Proof/Machine/Dispatch.lean ====
section
/-! DEFINITION. One arm per instruction: the effect of an end of record on the line the instruction is. -/

namespace Sys2Proof.Machine

def exec (i : Instr) (s : State) : Host.Outcome State Fault Refusal :=
  match i with
  | .s0 body => Sys2Proof.Machine.execS0 body s
  | .s1 body => Sys2Proof.Machine.execS1 body s
  | .s2 body => Sys2Proof.Machine.execS2 body s
  | .s3 body => Sys2Proof.Machine.execS3 body s
  | .s4 body => Sys2Proof.Machine.execS4 body s
  | .s5 body => Sys2Proof.Machine.execS5 body s
  | .s6 body => Sys2Proof.Machine.execS6 body s
  | .s7 body => Sys2Proof.Machine.execS7 body s
  | .s8 body => Sys2Proof.Machine.execS8 body s
  | .s9 body => Sys2Proof.Machine.execS9 body s

end Sys2Proof.Machine
end

