-- ==== Sys2Proof/Machine/Events.lean ====
section
/-! DEFINITION. The host's events (44_host_interface.md): when each is enabled and what it does. -/

namespace Sys2Proof.Machine

/-- When an event is enabled (R251, R259). -/
def enabled (e : Event) (s : State) : Bool :=
  match e with
  | .reset => true
  | .cfgWrite _ _ => true
  | .cfgRead _ => true
  | .pushChar _ => !s.rspValid
  | .endRecord => !s.rspValid
  | .readData _ => s.rspValid
  | .takeResponse => s.rspValid

/-- `Reset` (R360). -/
def onReset (s : State) : State := s.resetBlock

/-- `CfgWrite(n, v)` (R252). -/
def onCfgWrite (n : BitVec 2) (v : Word) (s : State) : State := s.cfgWrite n v

/-- `CfgRead(n)` (R258). -/
def onCfgRead (n : BitVec 2) (s : State) : State := s.reply (.config (s.cfgRead n))

/-- `PushChar(c)` (R253). -/
def onPushChar (c : Byte) (s : State) : State := s.pushRaw c

/-- `EndRecord` (R254): the line is the stripped `RAW`. A record runs its instruction; a line that is no record gets its
response too (R228, R229). -/
def onEndRecord (s : State) : Host.Outcome State Fault Refusal :=
  match decode s.raw with
  | .ok i => exec i s
  | .error _ => .next (s.respond (strip s.raw))

/-- `ReadData(k)` (R257). -/
def onReadData (k : Nat) (s : State) : State := s.reply (.data (s.dbuf k))

/-- `TakeResponse` (R257). -/
def onTakeResponse (s : State) : State :=
  match s.rsp with
  | none => s
  | some r => (s.reply (.response r)).retire

/-- What an enabled event does (R251). -/
def perform (e : Event) (s : State) : Host.Outcome State Fault Refusal :=
  match e with
  | .reset => .next (onReset s)
  | .cfgWrite n v => .next (onCfgWrite n v s)
  | .cfgRead n => .next (onCfgRead n s)
  | .pushChar c => .next (onPushChar c s)
  | .endRecord => onEndRecord s
  | .readData k => .next (onReadData k s)
  | .takeResponse => .next (onTakeResponse s)

/-- The host's next event happens if it is enabled. If it is not, the channel holds: the event waits and nothing changes
(R259, U9). With no event to come nothing changes either: the block has no event of its own (R20, R251). -/
def nextEvent (s : State) : Host.Outcome State Fault Refusal :=
  match s.events with
  | [] => .next s
  | e :: rest => if enabled e s then perform e { s with events := rest } else .next s

/-- The events that present one line and take its response (R265). -/
def presentLine (raw : Line) : List Event := raw.map .pushChar ++ [.endRecord, .takeResponse]

/-- The events that present the lines of a file, in file order (R253, R285). -/
def presentLines (raws : List Line) : List Event := raws.flatMap presentLine

/-- The source's `validate(line, expectedType, (min, max), stop)` as events (R265). -/
def validateEvents (raw : Line) (exptype : BitVec 4) (min max : Word) (stop : Bool) : List Event :=
  .cfgWrite 0#2 (exptype.setWidth 32 ||| (BitVec.ofBool stop).setWidth 32 <<< 4) :: .cfgWrite 1#2 min ::
    .cfgWrite 2#2 max :: presentLine raw

/-- The source's `decode(line)` as events, with the data bytes wanted read first (R265). -/
def decodeEvents (raw : Line) (wanted : List Nat) : List Event :=
  raw.map .pushChar ++ .endRecord :: wanted.map .readData ++ [.takeResponse]

/-- The responses among what the host was handed, in order: the result of a run (R264). -/
def responsesOf : List Reply → List Response
  | [] => []
  | .response r :: rest => r :: responsesOf rest
  | .config _ :: rest => responsesOf rest
  | .data _ :: rest => responsesOf rest

/-- A word of the opcode table placed as the line about to be ended, and its end of record as the next event. -/
def placeTableWord (s : State) (nbits w : Nat) : State :=
  { s with raw := tableLine nbits w, rsp := none, events := .endRecord :: s.events }

end Sys2Proof.Machine
end

