-- ==== Sys2Proof/Machine/Step.lean ====
section
/-! DEFINITION. One step of the machine: the host's next event (R251). -/

namespace Sys2Proof.Machine

/-- One step: the host's next event, if it is enabled. -/
def step (s : State) : Host.Outcome State Fault Refusal := nextEvent s

/-- `s` with a word of the opcode table where the next step runs it: its characters as the line pushed so far, no response
pending, and `EndRecord` the next event. -/
def State.withFetchWord (s : State) (nbits w : Nat) : State := placeTableWord s nbits w

end Sys2Proof.Machine
end

