-- ==== Sys2Proof/Machine/Crc.lean ====
section
/-! DEFINITION. The annex's whole-image CRC (45_downstream_flash_image.md R287): 16 bits, polynomial `0x1021`, with the four
parameters the source does not give taken as arguments (R8, U12). -/

namespace Sys2Proof.Machine

/-- The open parameters of the CRC (R8, R287). -/
structure CrcParams where
  init : BitVec 16
  refIn : Bool
  refOut : Bool
  xorOut : BitVec 16
deriving DecidableEq, Repr

/-- The polynomial (R287). -/
def crcPoly : BitVec 16 := 0x1021#16

/-- One bit's step of the register: shift left, and subtract the polynomial when a one falls out. -/
def crcShift (r : BitVec 16) : BitVec 16 := if r.msb then (r <<< 1) ^^^ crcPoly else r <<< 1

/-- `n` bits' steps. -/
def crcShifts : Nat → BitVec 16 → BitVec 16
  | 0, r => r
  | n + 1, r => crcShifts n (crcShift r)

/-- One byte's step, the byte reflected where the parameters say so. -/
def crcByte (p : CrcParams) (r : BitVec 16) (b : Byte) : BitVec 16 :=
  crcShifts 8 (r ^^^ ((if p.refIn then b.reverse else b).setWidth 16 <<< 8))

/-- The CRC of a byte sequence, fed in order. -/
def crc16 (p : CrcParams) (bs : List Byte) : BitVec 16 :=
  let r := bs.foldl (crcByte p) p.init
  (if p.refOut then r.reverse else r) ^^^ p.xorOut

/-- The parameters the spec leaves open, as the model takes them. -/
def openCrc : CrcParams where
  init := Config.crcInit
  refIn := Config.crcRefIn
  refOut := Config.crcRefOut
  xorOut := Config.crcXorOut

end Sys2Proof.Machine
end

