-- ==== Sys2Proof/Machine/ImageMemory.lean ====
section
/-! DEFINITION. The byte memory of the annex's image (45_downstream_flash_image.md): address and byte pairs in one canonical
form, addresses strictly rising and no entry equal to what an unlisted address reads as. The block itself has no data
memory (20_memory.md R60). -/

namespace Sys2Proof.Machine

/-- Cells by index. -/
abbrev Memory := List Host.Cell

/-- The byte at an index; an unlisted index reads as `fill`. -/
def Memory.read (fill : Byte) : Memory → Nat → Byte
  | [], _ => fill
  | (k, v) :: rest, a => if k = a then v else Memory.read fill rest a

/-- Sets the byte at an index, keeping the canonical form. -/
def Memory.write (fill : Byte) : Memory → Nat → Byte → Memory
  | [], a, b => if b = fill then [] else [(a, b)]
  | (k, v) :: rest, a, b =>
    if a < k then (if b = fill then (k, v) :: rest else (a, b) :: (k, v) :: rest)
    else if a = k then (if b = fill then rest else (a, b) :: rest)
    else (k, v) :: Memory.write fill rest a b

/-- Sets consecutive bytes from an index on, the first byte at the lowest index (R284). -/
def Memory.writeBytes (fill : Byte) : Memory → Nat → List Byte → Memory
  | m, _, [] => m
  | m, a, b :: bs => Memory.writeBytes fill (Memory.write fill m a b) (a + 1) bs

/-- The canonical form. -/
def Memory.wf (fill : Byte) : Memory → Bool
  | [] => true
  | (k, v) :: rest => v != fill && (rest.all fun c => decide (k < c.1)) && Memory.wf fill rest

/-- Every listed index is below `n`. -/
def Memory.within (n : Nat) (m : Memory) : Bool := m.all fun c => decide (c.1 < n)

/-- Any cells at all brought to canonical form below `n`. -/
def Memory.normalize (fill : Byte) (n : Nat) (cells : Memory) : Memory :=
  (cells.filter fun c => decide (c.1 < n)).foldl (fun m c => Memory.write fill m c.1 c.2) []

end Sys2Proof.Machine
end

