-- ==== Sys2Proof/Machine/FlashImage.lean ====
section
/-! DEFINITION. The annex: the downstream flash-image collaborator (45_downstream_flash_image.md). It is outside the block
(R5, R22), so it is no part of `State`: the host applies the block's responses to it. -/

namespace Sys2Proof.Machine

/-- A flash image (R280). The buffer is `cells` over `fillByte`, indices `0` to `size - 1`. -/
structure FlashImage where
  offset : Word
  size : Word
  fillByte : Byte
  cells : Memory
deriving DecidableEq, Repr

/-- `buffer[k]` (R280). -/
def FlashImage.byteAt (img : FlashImage) (k : Nat) : Byte := Memory.read img.fillByte img.cells k

/-- `buffer`, all `size` bytes in ascending index order (R280, R287). -/
def FlashImage.buffer (img : FlashImage) : List Byte := (List.range img.size.toNat).map img.byteAt

/-- The buffer is held in canonical form and lists nothing at or beyond `size`. -/
def FlashImage.wf (img : FlashImage) : Bool :=
  Memory.wf img.fillByte img.cells && Memory.within img.size.toNat img.cells

/-- `construct(offset, size, fillByte)` (R281). -/
def FlashImage.construct (offset size : Word) (fillByte : Byte) : FlashImage where
  offset := offset
  size := size
  fillByte := fillByte
  cells := []

/-- `construct` with the default fill byte (R281). -/
def FlashImage.constructDefault (offset size : Word) : FlashImage := FlashImage.construct offset size 0xFF#8

/-- `erase()` (R282): the content only. -/
def FlashImage.erase (img : FlashImage) : FlashImage := { img with cells := [] }

/-- The image runs past the 32-bit target space; what a write to it does is open (U14). -/
def FlashImage.oversize (img : FlashImage) : Bool := decide (2 ^ 32 < img.offset.toNat + img.size.toNat)

/-- `index = address - offset`, as integers (R284). -/
def FlashImage.index (img : FlashImage) (address : Word) : Int := (address.toNat : Int) - (img.offset.toNat : Int)

/-- The write fits: `0 <= index` and `index + len(data) <= size` (R284). -/
def FlashImage.inBounds (img : FlashImage) (address : Word) (data : List Byte) : Bool :=
  decide (0 ≤ img.index address) && decide (img.index address + (data.length : Int) ≤ (img.size.toNat : Int))

/-- A write to an oversize image: any value (U14). -/
def FlashImage.openWrite (img : FlashImage) (address : Word) (data : List Byte) : Option (FlashImage × Word) :=
  (Config.oversizeImageWrite img.offset img.size img.fillByte img.cells address data).map fun (cells, n) =>
    ({ img with cells := Memory.normalize img.fillByte img.size.toNat cells }, n)

/-- `write(address, data)` (R284): the image after it and the bytes written, or `none` for `WriteBoundsError`, where the
buffer is as before (R289). -/
def FlashImage.write (img : FlashImage) (address : Word) (data : List Byte) : Option (FlashImage × Word) :=
  if img.oversize then img.openWrite address data
  else if img.inBounds address data then
    some ({ img with cells := Memory.writeBytes img.fillByte img.cells (img.index address).toNat data },
      BitVec.ofNat 32 data.length)
  else none

/-- `checksum()` under given CRC parameters (R287). -/
def FlashImage.checksumWith (img : FlashImage) (p : CrcParams) : BitVec 16 := crc16 p img.buffer

/-- `checksum()` (R287). -/
def FlashImage.checksum (img : FlashImage) : BitVec 16 := img.checksumWith openCrc

/-- Why a load stops (R285, R289). -/
inductive LoadError where
  | decodeError (reason : DecodeError)
  | overrun
  | writeBoundsError
deriving DecidableEq, Repr

/-- What surfaces of a stopped load: the error, the record index and the line's address (R285, R327). -/
structure LoadReport where
  error : LoadError
  ridx : Word
  address : Option Word
deriving DecidableEq, Repr

/-- How a load ends: with the total written, or stopped (R285). -/
inductive LoadResult where
  | completed (total : Word)
  | aborted (report : LoadReport)
deriving DecidableEq, Repr

/-- The outcome of a load, with the image as the load leaves it (R285). -/
structure LoadOutcome where
  image : FlashImage
  result : LoadResult
deriving DecidableEq, Repr

/-- The total a load returns: the spec leaves a total that does not fit 32 bits open (U14). -/
def loadTotal (n : Nat) : Word := if n < 2 ^ 32 then BitVec.ofNat 32 n else Config.totalBytesOverflow n

/-- Applies the block's responses to an image in file order, from `total` bytes already written, to the first failure
(R285): `Decoded` is written, `Skip` does nothing, a decoder error, an overrun or a failed write aborts, and what was
written before stays. -/
def FlashImage.applyResponses (img : FlashImage) (total : Nat) : List Response → LoadOutcome
  | [] => { image := img, result := .completed (loadTotal total) }
  | r :: rest =>
    match r.outcome with
    | none => { image := img, result := .aborted ⟨.overrun, r.ridx, none⟩ }
    | some .skip => FlashImage.applyResponses img total rest
    | some (.error e) => { image := img, result := .aborted ⟨.decodeError e, r.ridx, r.xAddr⟩ }
    | some (.decoded a ds) =>
      match img.write a ds with
      | none => { image := img, result := .aborted ⟨.writeBoundsError, r.ridx, some a⟩ }
      | some (img', n) => FlashImage.applyResponses img' (total + n.toNat) rest

/-- What the block answers for the lines of a file presented one after another, the first under record index `ridx`
(R74, R254, R257). -/
def fileResponses (s : State) (ridx : Word) : List Line → List Response
  | [] => []
  | raw :: rest => lineResponse (strip raw) { s with ridx := ridx } :: fileResponses s (ridx + 1#32) rest

/-- `loadFile` (R285), on the lines of the file in order: the block `s` answers for them and its responses are applied. -/
def FlashImage.loadFile (img : FlashImage) (s : State) (raws : List Line) : LoadOutcome :=
  img.applyResponses 0 (fileResponses s s.ridx raws)

/-- The labels of an image's life (R288). -/
inductive ImagePhase where
  | created
  | erased
  | loaded
  | verified
  | partiallyLoaded
deriving DecidableEq, Repr

/-- An image with its label, owned by one session (R288, R290). -/
structure ImageSession where
  image : FlashImage
  phase : ImagePhase
deriving DecidableEq, Repr

/-- Construction (R288). -/
def ImageSession.create (offset size : Word) (fillByte : Byte) : ImageSession :=
  ⟨FlashImage.construct offset size fillByte, .created⟩

/-- `erase()`: the one documented recovery (R288). -/
def ImageSession.erase (x : ImageSession) : ImageSession := ⟨x.image.erase, .erased⟩

/-- After a success the image is loaded, unless a failed load has left it partly loaded: only `erase` mends that (R288). -/
def ImagePhase.afterSuccess (p : ImagePhase) : ImagePhase := if p = .partiallyLoaded then .partiallyLoaded else .loaded

/-- `write` (R284, R288): a failed one changes nothing. -/
def ImageSession.write (x : ImageSession) (address : Word) (data : List Byte) : ImageSession :=
  match x.image.write address data with
  | some (img, _) => ⟨img, x.phase.afterSuccess⟩
  | none => x

/-- `loadFile` (R285, R288): a failed one leaves the image partly loaded. -/
def ImageSession.load (x : ImageSession) (s : State) (raws : List Line) : ImageSession :=
  let o := x.image.loadFile s raws
  match o.result with
  | .completed _ => ⟨o.image, x.phase.afterSuccess⟩
  | .aborted _ => ⟨o.image, .partiallyLoaded⟩

/-- Reading the checksum and comparing it outside: no buffer change (R288). -/
def ImageSession.verify (x : ImageSession) : ImageSession × BitVec 16 :=
  (⟨x.image, if x.phase = .loaded then .verified else x.phase⟩, x.image.checksum)

end Sys2Proof.Machine
end

