-- ==== Sys2Proof/Machine/Ports.lean ====
section
/-! DEFINITION. The port-level sketch (44_host_interface.md R261, R262; informative in the spec): the events one clock cycle
causes, and their order. A cycle's events are put before the host's other events; no cycle count is modelled (R373). -/

namespace Sys2Proof.Machine

/-- The inputs of one cycle (R261). -/
structure PortInputs where
  rst : Bool
  cfgValid : Bool
  cfgWrite : Bool
  cfgNum : BitVec 2
  cfgWdata : Word
  recValid : Bool
  recChar : Byte
  recLast : Bool
  recEmpty : Bool
  rspReady : Bool
deriving DecidableEq, Repr

/-- `rec_ready`: low exactly when `RSP_VALID = 1` (R261). -/
def recReady (s : State) : Bool := !s.rspValid

/-- The outputs of a cycle (R261): `rec_ready`, `rsp_valid` with the response's fields, `cfg_rdata`, `dbuf_byte`. A field without value, and a byte without value, may be anything at a pin (R30, U7). -/
structure PortOutputs where
  recReady : Bool
  rspValid : Bool
  rsp : Option Response
  cfgRdata : Word
  dbufByte : Option Byte
deriving DecidableEq, Repr

/-- The outputs while `cfg_num` and `dbuf_index` are driven (R258, R261): reading them changes nothing.
DESIGN CHOICE (notes/assumptions 16, unsafe for a claim about pins): `cfg_rdata` shows the register that `cfg_num` names in
every cycle, one without a read access too (`cfg_valid` low, or `cfg_write` high), where the sketch is silent; and
`dbuf_byte` shows the byte of `dbuf_index` in every cycle. Both are of the state at the cycle's beginning. -/
def portOutputs (s : State) (cfgNum : BitVec 2) (dbufIndex : Nat) : PortOutputs where
  recReady := recReady s
  rspValid := s.rspValid
  rsp := s.rsp
  cfgRdata := s.cfgRead cfgNum
  dbufByte := s.dbuf dbufIndex

/-- The record channel's events of a cycle (R261): a beat is a pushed character, with `EndRecord` after it when it is the
last; an empty last beat is `EndRecord` alone. -/
def recordEvents (p : PortInputs) (s : State) : List Event :=
  if p.recValid && recReady s then
    (if p.recEmpty && p.recLast then [] else [.pushChar p.recChar]) ++ (if p.recLast then [.endRecord] else [])
  else []

/-- The configuration channel's event of a cycle (R261). -/
def configEvents (p : PortInputs) : List Event :=
  if p.cfgValid then [if p.cfgWrite then .cfgWrite p.cfgNum p.cfgWdata else .cfgRead p.cfgNum] else []

/-- The response channel's event of a cycle (R261). -/
def responseEvents (p : PortInputs) (s : State) : List Event :=
  if p.rspReady && s.rspValid then [.takeResponse] else []

/-- The place of an event among those of one cycle (R262). -/
def cyclePlace : Event → Nat
  | .reset => 0
  | .readData _ => 0
  | .takeResponse => 1
  | .pushChar _ => 2
  | .endRecord => 3
  | .cfgWrite _ _ => 4
  | .cfgRead _ => 4

/-- The events of one cycle in the order in which they happen (R262): `Reset` alone if it is among them, else by place. -/
def cycleOrder (es : List Event) : List Event :=
  if es.contains .reset then [.reset]
  else [0, 1, 2, 3, 4].flatMap fun k => es.filter fun e => cyclePlace e == k

/-- The events a cycle causes, in order (R261, R262). -/
def cycleEvents (p : PortInputs) (s : State) : List Event :=
  cycleOrder ((if p.rst then [.reset] else []) ++ configEvents p ++ recordEvents p s ++ responseEvents p s)

/-- A state about to live through a cycle with these inputs. -/
def State.withCycle (s : State) (p : PortInputs) : State := { s with events := cycleEvents p s ++ s.events }

end Sys2Proof.Machine
end

