-- ==== Sys2Proof/Machine/Compose.lean ====
section
/-! DEFINITION. Composing the text of a record from its contents (30_encoding.md R103), and what a well-formed record is
(R100). Upper-case digits, as in the source's examples. -/

namespace Sys2Proof.Machine

/-- The upper-case hex digit of a 4-bit value (R9, R11). -/
def hexDigit (n : BitVec 4) : Byte :=
  if n < 10#4 then 0x30#8 + n.setWidth 8 else 0x41#8 + (n.setWidth 8 - 10#8)

/-- A byte as two hex characters, high nibble first (R64). -/
def hexByte (b : Byte) : Line := [hexDigit (b.extractLsb' 4 4), hexDigit (b.extractLsb' 0 4)]

/-- The low `n` bytes of an address, most significant first (R65). -/
def bigEndian (n : Nat) (a : Word) : List Byte :=
  (List.range n).map fun i => (a >>> (8 * (n - 1 - i))).setWidth 8

/-- The characters after the marker of a record with these content bytes (address and data, or the body of a non-data
record): the byte count, the content, the checksum (R103). -/
def composeBody (content : List Byte) : Line :=
  let counted := BitVec.ofNat 8 (content.length + 1) :: content
  (counted ++ [calcChecksum counted]).flatMap hexByte

/-- The characters after the marker of a data record of type `t` with address `a` and data `ds` (R103). -/
def composeData (t : BitVec 4) (a : Word) (ds : List Byte) : Line :=
  composeBody (bigEndian ((addrBytes t).getD 0) a ++ ds)

/-- `wf(ln)` (R100): a well-formed record, whatever its type. -/
def wellFormedRecord (ln : Line) : Bool :=
  match recType ln with
  | none => false
  | some t =>
    decide (6 ≤ ln.length) && decide (ln.length % 2 = 0) && hexAfterMarker ln &&
      (match byteCount ln with
        | none => false
        | some bc => bc.toNat == (ln.length - 4) / 2) &&
      (match addrChars t with
        | none => true
        | some w => decide (6 + w ≤ ln.length)) &&
      (match hexPairs ((ln.drop 2).take (ln.length - 4)), embeddedChecksum ln with
        | some bs, some ck => ck == calcChecksum bs
        | _, _ => false)

end Sys2Proof.Machine
end

