-- ==== Sys2Proof/Safety.lean ====
section
/-! DEFINITION. What counts as a good state, a complete run, and a response the host may act on. -/

namespace Sys2Proof.Machine

/-- What the spec says of every response the block makes: `v_ok` exactly when no reason is set (R38 c), the data fit the
buffer (R179), and a decoded address is the one reported (R178 a). -/
def Response.sound (r : Response) : Bool :=
  match r.body with
  | .overrun => true
  | .processed ok reasons outcome xAddr =>
    (ok == (reasons == 0#4)) &&
      match outcome with
      | .decoded a ds => decide (ds.length ≤ Config.DMAX) && xAddr == some a
      | .skip => xAddr.isNone
      | .error _ => true

/-- The invariants of the state (R38): (a) a pending response means an empty line buffer; (b) it carries the present record
index; (c) it is sound; (d) the reserved bits of `CTRL` are 0. -/
structure State.Inv (s : State) : Prop where
  raw_empty : s.rspValid = true → s.raw = []
  same_index : ∀ r, s.rsp = some r → r.ridx = s.ridx
  response_sound : ∀ r, s.rsp = some r → r.sound = true
  ctrl_reserved : s.ctrl &&& ~~~ctrlMask = 0#32

/-- Nothing is half done: the run so far is complete (R264). -/
def State.complete (s : State) : Bool := s.raw.isEmpty && !s.rspValid

/-- The host's next event waits on a channel that holds (R259). -/
def State.held (s : State) : Bool :=
  match s.events with
  | [] => false
  | e :: _ => !enabled e s

/-- A response whose data the host may use (R263, R365): it decoded, and the validator passed it. -/
def Response.usable (r : Response) : Bool := r.vOk == some true && r.dKind == some .decoded

/-- A response a bulk load may go on after (R366): it decoded or was skipped; an error or an overrun is no result. -/
def Response.loadable (r : Response) : Bool := r.dKind == some .decoded || r.dKind == some .skip

end Sys2Proof.Machine
end

