-- ==== Sys2Proof/Certificates/Slice0/Obligations.lean ====
section
/-! DEFINITION. The statements for the provers. Each docstring names the rule of spec/ it formalises. `perform e s` is what
the event `e` does to `s`; `exec i s` what an end of record does when the line is the instruction `i`; `step s` the host's
next event. The fields `events` and `replies` are the model's own (notes/assumptions 1 and 2). -/

open Sys2Proof Sys2Proof.Machine

/-! ### Reset and the configuration registers -/

/-- R37: every piece of the block's state at its reset value. -/
def Obligations.ResetLeavesTheFailClosedState : Prop :=
  expType State.reset.ctrl = 0#4 ∧ stopBit State.reset.ctrl = false ∧ State.reset.ctrl = 0#32 ∧
    State.reset.rmin = 0xFFFFFFFF#32 ∧ State.reset.rmax = 0x00000000#32 ∧ State.reset.raw = [] ∧
    State.reset.rspValid = false ∧ State.reset.rsp = none ∧ State.reset.ridx = 0#32

/-- R360: from any state, `Reset` puts the block where it is after reset. That the host keeps its script and what it was
handed is the model's choice (notes/assumptions 1 and 2). -/
def Obligations.ResetEventRestoresTheResetState : Prop :=
  ∀ s : State, perform .reset s = .next { State.reset with events := s.events, replies := s.replies }

/-- R252: a configuration write stores under the mask, changes nothing else, and is always enabled. -/
def Obligations.ConfigWriteStoresUnderTheMask : Prop :=
  ∀ (s : State) (v : Word),
    perform (.cfgWrite 0#2 v) s = .next { s with ctrl := v &&& 0x0000001F#32 } ∧
    perform (.cfgWrite 1#2 v) s = .next { s with rmin := v } ∧
    perform (.cfgWrite 2#2 v) s = .next { s with rmax := v } ∧
    perform (.cfgWrite 3#2 v) s = .next s ∧
    ∀ n, enabled (.cfgWrite n v) s = true

/-- R258: a configuration read hands back the register and changes nothing of the block. The place the value goes to is
the model's own (notes/assumptions 2). -/
def Obligations.ConfigReadReturnsTheRegister : Prop :=
  ∀ s : State,
    perform (.cfgRead 0#2) s = .next { s with replies := s.replies ++ [.config (s.ctrl &&& 0x0000001F#32)] } ∧
    perform (.cfgRead 1#2) s = .next { s with replies := s.replies ++ [.config s.rmin] } ∧
    perform (.cfgRead 2#2) s = .next { s with replies := s.replies ++ [.config s.rmax] } ∧
    perform (.cfgRead 3#2) s = .next { s with replies := s.replies ++ [.config 0#32] } ∧
    ∀ n, enabled (.cfgRead n) s = true

/-! ### The other events -/

/-- R253, R28: a pushed character joins the line at its end; nothing else changes. -/
def Obligations.PushedCharacterJoinsTheLine : Prop :=
  ∀ (s : State) (c : Byte), perform (.pushChar c) s = .next { s with raw := s.raw ++ [c] }

/-- R254: an end of record holds the response of the stripped line and empties the line; nothing else changes. It is
enabled whatever was pushed, nothing included, as long as no response waits. -/
def Obligations.EndRecordHoldsTheResponse : Prop :=
  ∀ s : State,
    perform .endRecord s = .next { s with
      raw := []
      rsp := some (if Config.LMAX < (strip s.raw).length then { ridx := s.ridx, body := .overrun }
        else processedResponse (strip s.raw) s.ctrl s.rmin s.rmax s.ridx) } ∧
    (s.rspValid = false → enabled .endRecord s = true)

/-- R257: taking a response hands it over, empties `RSP` and advances the record index modulo `2^32`. The place the
response goes to is the model's own (notes/assumptions 2). -/
def Obligations.TakingHandsOverTheResponse : Prop :=
  ∀ (s : State) (r : Response), s.rsp = some r →
    perform .takeResponse s =
      .next { s with rsp := none, ridx := s.ridx + 1#32, replies := s.replies ++ [.response r] }

/-- R257, R32: a read of the data buffer hands back byte `k` of decoded data, and no value otherwise; it changes nothing
of the block. -/
def Obligations.ReadDataReturnsTheBuffer : Prop :=
  ∀ (s : State) (k : Nat),
    (∀ (i : Word) (ok : Bool) (v : BitVec 4) (a : Word) (ds : List Byte) (x : Option Word),
      s.rsp = some ⟨i, .processed ok v (.decoded a ds) x⟩ →
        perform (.readData k) s = .next { s with replies := s.replies ++ [.data ds[k]?] }) ∧
    (∀ r : Response, s.rsp = some r → r.dKind ≠ some .decoded →
      perform (.readData k) s = .next { s with replies := s.replies ++ [.data none] })

/-- R259: while a response waits the record channel holds, until it is taken or the block reset; while none waits there is
nothing to read or take, until a record ends. -/
def Obligations.ChannelsHoldAndAreLifted : Prop :=
  ∀ (s : State) (c : Byte) (k : Nat),
    (s.rspValid = true →
      enabled (.pushChar c) s = false ∧ enabled .endRecord s = false ∧
      ∀ e t, (e = .takeResponse ∨ e = .reset) → perform e s = .next t →
        enabled (.pushChar c) t = true ∧ enabled .endRecord t = true) ∧
    (s.rspValid = false →
      enabled (.readData k) s = false ∧ enabled .takeResponse s = false ∧
      ∀ t, perform .endRecord s = .next t → enabled (.readData k) t = true ∧ enabled .takeResponse t = true)

/-- The step, where an event is to come and enabled: that event happens and is gone from the script. The script is the
model's own (notes/assumptions 1). -/
def Obligations.StepPerformsTheNextEnabledEvent : Prop :=
  ∀ (s : State) (e : Event) (rest : List Event), s.events = e :: rest → enabled e s = true →
    step s = perform e { s with events := rest }

/-- The step, where no event is to come or the next one is not enabled: nothing changes, and the event still waits
(R251, R259; that this is a step to the same state is the model's choice, notes/assumptions 4). -/
def Obligations.BlockNeverActsOnItsOwn : Prop :=
  ∀ s : State,
    (s.events = [] → step s = .next s) ∧
    (∀ e rest, s.events = e :: rest → enabled e s = false → step s = .next s)

/-- R254, R95: the step at an end of record on a line that decodes to `i` is the meaning of `i`, with the event gone from
the script; the meaning itself empties the line. That a step takes its event off a script is the model's construction
(notes/assumptions 1, DESIGN CHOICE), and so is that the line's response is the meaning of an instruction
(notes/assumptions 7, DEDUCED). -/
def Obligations.StepRunsTheDecodedRecord : Prop :=
  ∀ (s : State) (i : Instr) (rest : List Event), s.events = .endRecord :: rest → s.rspValid = false →
    decode s.raw = .ok i → step s = exec i { s with events := rest }

/-- R260, R374: an enabled event completes, and is done with. That a step whose event is not enabled, or that has no event,
answers a next state too, the same one with the event still to come, is the model's choice (notes/assumptions 1 and 4,
DESIGN CHOICE). -/
def Obligations.EveryStepCompletes : Prop :=
  ∀ s : State, ∃ t, step s = .next t ∧
    t.events = match s.events with
      | [] => []
      | e :: rest => if enabled e s then rest else e :: rest

/-! ### The records -/

/-- R200: each data record's end of record completes with the response its own checks, its own decoder and the address
extractor give, and changes nothing else. -/
def Obligations.DataRecordsAnswerTheirChecks : Prop :=
  ∀ (body : Line) (s : State), body.length + 2 ≤ Config.LMAX →
    ∀ p ∈ [(Instr.s1 body, 1#4, 4), (Instr.s2 body, 2#4, 6), (Instr.s3 body, 3#4, 8)],
      let ln := encode p.1
      let f : CheckFailures :=
        { fmt := p.2.1 != expType s.ctrl
          len := !lengthCheck ln
          rng := match extractAddr ln with
            | none => true
            | some a => !(decide (s.rmin.toNat ≤ a.toNat) && decide (a.toNat ≤ s.rmax.toNat))
          chk := !checksumCheck ln }
      let v := verdictOf (stopBit s.ctrl) f
      exec p.1 s = .next { s with
        raw := []
        rsp := some { ridx := s.ridx, body := .processed v.vOk v.vReasons (decodeData ln p.2.2) (extractAddr ln) } }

/-- R220: each non-data record's end of record completes with a response that only LengthCheck and ChecksumCheck can fail,
no address, and `Skip` (or `UnsupportedType` for the reserved types), and changes nothing else. -/
def Obligations.NonDataRecordsAnswerTheirChecks : Prop :=
  ∀ (body : Line) (s : State), body.length + 2 ≤ Config.LMAX →
    ∀ p ∈ [(Instr.s0 body, DecodeOutcome.skip), (Instr.s5 body, .skip), (Instr.s7 body, .skip),
        (Instr.s8 body, .skip), (Instr.s9 body, .skip), (Instr.s4 body, .error .unsupportedType),
        (Instr.s6 body, .error .unsupportedType)],
      let ln := encode p.1
      let f : CheckFailures := { fmt := false, len := !lengthCheck ln, rng := false, chk := !checksumCheck ln }
      let v := verdictOf (stopBit s.ctrl) f
      exec p.1 s = .next { s with
        raw := []
        rsp := some { ridx := s.ridx, body := .processed v.vOk v.vReasons p.2 none } }

/-- R256: a line longer than `LMAX`, a record or not, gets the overrun response, every field beyond `ridx` and `kind`
without value; LengthCheck could not have passed. -/
def Obligations.OverlongLineIsRefusedWhole : Prop :=
  ∀ s : State,
    let refusedWhole (ln : Line) (o : Host.Outcome State Fault Refusal) : Prop :=
      lengthCheck ln = false ∧
      ∃ r : Response, o = .next { s with raw := [], rsp := some r } ∧
        r.ridx = s.ridx ∧ r.kind = .overrun ∧ r.vOk = none ∧ r.vReasons = none ∧ r.dKind = none ∧ r.dErr = none ∧
        r.dAddr = none ∧ r.dLen = none ∧ r.dData = none ∧ r.xAddr = none
    (∀ i : Instr, Config.LMAX < i.body.length + 2 → refusedWhole (encode i) (exec i s)) ∧
    (Config.LMAX < (strip s.raw).length → refusedWhole (strip s.raw) (perform .endRecord s))

/-- R228, R229: a line that is not a record, in collect and in stop mode; and the empty line (terminators or nothing at
all), which fails every check. -/
def Obligations.LineThatIsNoRecord : Prop :=
  ∀ s : State, (strip s.raw).length ≤ Config.LMAX →
    let answer (reasons : BitVec 4) : Host.Outcome State Fault Refusal :=
      .next { s with raw := [], rsp := some ⟨s.ridx, .processed false reasons (.error .badMarker) none⟩ }
    ((strip s.raw).length = 1 ∨
        (∃ c d rest, strip s.raw = c :: d :: rest ∧ ¬(c = 0x53#8 ∧ 0x30 ≤ d.toNat ∧ d.toNat ≤ 0x39)) →
      perform .endRecord s = answer (if stopBit s.ctrl then 0b0001#4
        else CheckFailures.mask
          { fmt := true, len := !lengthCheck (strip s.raw), rng := true, chk := !checksumCheck (strip s.raw) })) ∧
    ((∀ c ∈ s.raw, c = 0x0D#8 ∨ c = 0x0A#8) →
      perform .endRecord s = answer (if stopBit s.ctrl then 0b0001#4 else 0b1111#4))

/-- R144, R330: whatever it reports, a record's meaning leaves every register of the block as it was and the line empty. -/
def Obligations.RecordsChangeOnlyTheResponse : Prop :=
  ∀ (i : Instr) (s t : State), exec i s = .next t →
    t.ctrl = s.ctrl ∧ t.rmin = s.rmin ∧ t.rmax = s.rmax ∧ t.ridx = s.ridx ∧ t.raw = [] ∧
    t.events = s.events ∧ t.replies = s.replies ∧ ∃ r, t.rsp = some r ∧ r.ridx = s.ridx

/-- R220: `EXPTYPE`, `RMIN` and `RMAX` cannot show in a non-data record's response, and `STOP` cannot show in its verdict. -/
def Obligations.NonDataVerdictIgnoresTheConfiguration : Prop :=
  ∀ (i : Instr) (s s' t t' : State), s.ridx = s'.ridx →
    (∀ b, i ≠ .s1 b) → (∀ b, i ≠ .s2 b) → (∀ b, i ≠ .s3 b) → exec i s = .next t → exec i s' = .next t' →
      (stopBit s.ctrl = stopBit s'.ctrl → t.rsp = t'.rsp) ∧ t.rsp.bind Response.vOk = t'.rsp.bind Response.vOk

/-! ### The validator -/

/-- R132: FormatCheck, character by character. -/
def Obligations.FormatCheckPassesExactly : Prop :=
  ∀ (ln : Line) (exptype : BitVec 4), formatCheck ln exptype = true ↔
    ∃ d rest, ln = 0x53#8 :: d :: rest ∧ 0x30 ≤ d.toNat ∧ d.toNat ≤ 0x39 ∧
      (d.toNat = 0x31 ∨ d.toNat = 0x32 ∨ d.toNat = 0x33 → exptype.toNat = d.toNat - 0x30)

/-- R133: LengthCheck; no line over 514 characters passes. -/
def Obligations.LengthCheckPassesExactly : Prop :=
  ∀ ln : Line,
    (lengthCheck ln = true ↔
      4 ≤ ln.length ∧ ln.length % 2 = 0 ∧ ∃ bc, pair ln 2 = some bc ∧ bc.toNat = (ln.length - 4) / 2) ∧
    (514 < ln.length → lengthCheck ln = false)

/-- R134: AddressCheck, as numbers: the field lies before the checksum pair and both bounds are inclusive. -/
def Obligations.AddressCheckPassesExactly : Prop :=
  ∀ (ln : Line) (rmin rmax : Word), addressCheck ln rmin rmax = true ↔
    ∃ t, recType ln = some t ∧
      ∀ w, (t = 1#4 ∧ w = 4) ∨ (t = 2#4 ∧ w = 6) ∨ (t = 3#4 ∧ w = 8) →
        4 + w + 2 ≤ ln.length ∧ ∃ v, hexnum ln 4 w = some v ∧ rmin.toNat ≤ v ∧ v ≤ rmax.toNat

/-- R135: ChecksumCheck, as numbers. -/
def Obligations.ChecksumCheckPassesExactly : Prop :=
  ∀ ln : Line, checksumCheck ln = true ↔
    6 ≤ ln.length ∧ ln.length % 2 = 0 ∧ (∀ i c, 2 ≤ i → ln[i]? = some c → (hexval c).isSome) ∧
      ∃ bs ck, hexPairs (ln.drop 2) = some (bs ++ [ck]) ∧ ck.toNat = 255 - (bs.map BitVec.toNat).sum % 256

/-- R139: the wrapping 8-bit sum is the wide sum masked at the end, and its complement is `SUM xor 0xFF = 255 - SUM`. -/
def Obligations.WrappingSumIsTheWideSum : Prop :=
  ∀ bs : List Byte, (sumBytes bs).toNat = (bs.map BitVec.toNat).sum % 256 ∧
    calcChecksum bs = sumBytes bs ^^^ 0xFF#8 ∧ (calcChecksum bs).toNat = 255 - (sumBytes bs).toNat

/-- R140: in its domain the check passes exactly when all the pairs, the checksum included, sum to 255 modulo 256; so one
pair changed is always caught, and pairs in another order never are. -/
def Obligations.ChecksumSeesOneChangedPairButNoOrder : Prop :=
  (∀ (ln : Line) (bs : List Byte), 6 ≤ ln.length → hexPairs (ln.drop 2) = some bs →
    (checksumCheck ln = true ↔ (bs.map BitVec.toNat).sum % 256 = 0xFF)) ∧
  (∀ (ln ln' : Line) (bs : List Byte) (k : Nat) (b : Byte), hexPairs (ln.drop 2) = some bs →
    hexPairs (ln'.drop 2) = some (bs.set k b) → k < bs.length → bs[k]? ≠ some b →
    checksumCheck ln = true → checksumCheck ln' = false) ∧
  (∀ (ln ln' : Line) (bs bs' : List Byte), hexPairs (ln.drop 2) = some bs → hexPairs (ln'.drop 2) = some bs' →
    bs.Perm bs' → checksumCheck ln = checksumCheck ln')

/-- R137: collect mode reports each failing check in its own bit, `v_ok` says that there is none, and the list of
reasons is the set bits' in ascending order. -/
def Obligations.CollectModeReportsEveryFailure : Prop :=
  ∀ (ln : Line) (exptype : BitVec 4) (rmin rmax : Word),
    let v := validate ln exptype rmin rmax false
    v.vReasons.getLsbD 0 = !formatCheck ln exptype ∧ v.vReasons.getLsbD 1 = !lengthCheck ln ∧
    v.vReasons.getLsbD 2 = !addressCheck ln rmin rmax ∧ v.vReasons.getLsbD 3 = !checksumCheck ln ∧
    (v.vOk = true ↔ v.vReasons = 0#4) ∧
    reasonList v.vReasons =
      (if formatCheck ln exptype then [] else [.formatError]) ++ (if lengthCheck ln then [] else [.lengthError]) ++
      (if addressCheck ln rmin rmax then [] else [.rangeError]) ++ (if checksumCheck ln then [] else [.checksumError])

/-- R141: the two modes agree on the verdict, and stop mode's list is the first of collect mode's. -/
def Obligations.StopModeGivesTheFirstReason : Prop :=
  ∀ (ln : Line) (exptype : BitVec 4) (rmin rmax : Word),
    let stop := validate ln exptype rmin rmax true
    let collect := validate ln exptype rmin rmax false
    stop.vOk = collect.vOk ∧ reasonList stop.vReasons = (reasonList collect.vReasons).take 1

/-- R142, first sentence: when the validator returns `OK`. -/
def Obligations.ValidatorPassesExactly : Prop :=
  ∀ (ln : Line) (exptype : BitVec 4) (rmin rmax : Word) (stop : Bool),
    (validate ln exptype rmin rmax stop).vOk = true ↔
      ∃ t, recType ln = some t ∧ (isData t = true → t = exptype) ∧ ln.length % 2 = 0 ∧ 6 ≤ ln.length ∧
        (∀ i c, 2 ≤ i → ln[i]? = some c → (hexval c).isSome) ∧
        (∃ bc, pair ln 2 = some bc ∧ bc.toNat = (ln.length - 4) / 2) ∧
        (∀ w, addrChars t = some w → 6 + w ≤ ln.length ∧
          ∃ v, hexnum ln 4 w = some v ∧ rmin.toNat ≤ v ∧ v ≤ rmax.toNat) ∧
        (∃ bs ck, hexPairs (ln.drop 2) = some (bs ++ [ck]) ∧ ck.toNat = 255 - (bs.map BitVec.toNat).sum % 256)

/-- R142, R100: `OK` is a well-formed record, and for a data record the expected subtype and a start address in the
window. -/
def Obligations.OkMeansWellFormedInTheWindow : Prop :=
  ∀ (ln : Line) (exptype : BitVec 4) (rmin rmax : Word) (stop : Bool),
    (validate ln exptype rmin rmax stop).vOk = true ↔
      wellFormedRecord ln = true ∧
        ∀ t, recType ln = some t → isData t = true →
          t = exptype ∧ ∃ a, extractAddr ln = some a ∧ rmin.toNat ≤ a.toNat ∧ a.toNat ≤ rmax.toNat

/-! ### The decoder -/

/-- R171: the address extractor, as numbers; the value fits the record's own address width. -/
def Obligations.ExtractedAddressIsTheField : Prop :=
  ∀ (ln : Line) (a : Word), extractAddr ln = some a ↔
    ∃ t w, recType ln = some t ∧ ((t = 1#4 ∧ w = 4) ∨ (t = 2#4 ∧ w = 6) ∨ (t = 3#4 ∧ w = 8)) ∧
      4 + w + 2 ≤ ln.length ∧ hexnum ln 4 w = some a.toNat ∧ a.toNat < 16 ^ w

/-- R67: the same address in an `S1`, an `S2` and an `S3` record, whatever the rest of each record. -/
def Obligations.AddressWidthDoesNotChangeTheAddress : Prop :=
  ∀ (field c1 c2 c3 d1 d2 d3 : Line) (v : Nat), field.length = 4 → hexDigits 0 field = some v →
    c1.length = 2 → c2.length = 2 → c3.length = 2 → 2 ≤ d1.length → 2 ≤ d2.length → 2 ≤ d3.length →
      extractAddr (encode (.s1 (c1 ++ field ++ d1))) = some (BitVec.ofNat 32 v) ∧
      extractAddr (encode (.s2 (c2 ++ [0x30#8, 0x30#8] ++ field ++ d2))) = some (BitVec.ofNat 32 v) ∧
      extractAddr (encode (.s3 (c3 ++ [0x30#8, 0x30#8, 0x30#8, 0x30#8] ++ field ++ d3))) = some (BitVec.ofNat 32 v)

/-- R98, R174: the data of a decoded record are the hex-pairs between the address and the checksum, in line order, their
number fixed by the line's length; the address is the field's. -/
def Obligations.DecodedDataIsEveryRemainingPair : Prop :=
  ∀ (ln : Line) (a : Word) (ds : List Byte), decodeRecord ln = .decoded a ds →
    ∃ t w, recType ln = some t ∧ addrChars t = some w ∧ hexnum ln 4 w = some a.toNat ∧
      ds.length = (ln.length - 4 - w - 2) / 2 ∧ ∀ k, k < ds.length → ds[k]? = pair ln (4 + w + 2 * k)

/-- R175: each error reason, exactly when its test is the first to fire. -/
def Obligations.DecoderErrorsInTheirOrder : Prop :=
  ∀ ln : Line,
    (decodeRecord ln = .error .badMarker ↔ recType ln = none) ∧
    (decodeRecord ln = .error .unsupportedType ↔ recType ln = some 4#4 ∨ recType ln = some 6#4) ∧
    (decodeRecord ln = .error .badLength ↔
      ∃ t w, recType ln = some t ∧ addrChars t = some w ∧ (ln.length < 4 + w + 2 ∨ ln.length % 2 = 1)) ∧
    (decodeRecord ln = .error .invalidHexDigit ↔
      ∃ t w, recType ln = some t ∧ addrChars t = some w ∧ 4 + w + 2 ≤ ln.length ∧ ln.length % 2 = 0 ∧
        ∃ i c, 2 ≤ i ∧ ln[i]? = some c ∧ hexval c = none)

/-- R173: `Skip` is decided by the two marker characters alone. -/
def Obligations.SkipIsDecidedByTheMarker : Prop :=
  ∀ ln : Line, decodeRecord ln = .skip ↔
    ∃ d rest, ln = 0x53#8 :: d :: rest ∧
      (d = 0x30#8 ∨ d = 0x35#8 ∨ d = 0x37#8 ∨ d = 0x38#8 ∨ d = 0x39#8)

/-- R178: (a) a decoded address is the extracted one; (b) a data record that validates decodes, in the window, to as many
bytes as the count says; (c) a decoded record may fail every check. -/
def Obligations.ValidatedDataRecordsDecode : Prop :=
  (∀ (ln : Line) (a : Word) (ds : List Byte), decodeRecord ln = .decoded a ds → extractAddr ln = some a) ∧
  (∀ (ln : Line) (t exptype : BitVec 4) (w : Nat) (rmin rmax : Word) (stop : Bool),
    recType ln = some t → addrChars t = some w → (validate ln exptype rmin rmax stop).vOk = true →
      ∃ a ds bc, decodeRecord ln = .decoded a ds ∧ rmin.toNat ≤ a.toNat ∧ a.toNat ≤ rmax.toNat ∧
        pair ln 2 = some bc ∧ ds.length + w / 2 + 1 = bc.toNat) ∧
  (∃ (ln : Line) (a : Word) (ds : List Byte) (exptype : BitVec 4) (rmin rmax : Word),
    decodeRecord ln = .decoded a ds ∧ (validate ln exptype rmin rmax false).vReasons = 0b1111#4)

/-- R179: no line the block processes decodes to more than `DMAX` bytes; an `S1` line of length `LMAX` reaches it; a line
that passes LengthCheck gives at most 252. -/
def Obligations.DataFitsTheBuffer : Prop :=
  (∀ (ln : Line) (a : Word) (ds : List Byte), decodeRecord ln = .decoded a ds →
    (ln.length ≤ Config.LMAX → ds.length ≤ Config.DMAX) ∧ (lengthCheck ln = true → ds.length ≤ 252)) ∧
  (∃ (body : Line) (a : Word) (ds : List Byte), (encode (.s1 body)).length = Config.LMAX ∧
    decodeRecord (encode (.s1 body)) = .decoded a ds ∧ ds.length = Config.DMAX)

/-- R11, R103: a lower-case hex digit says what its upper-case form says: a line and the same line with its `a` to `f` after
the marker in upper case get the same response in every state. -/
def Obligations.CaseOfHexDigitsDoesNotMatter : Prop :=
  ∀ (ln : Line) (s : State),
    lineResponse (ln.take 2 ++ (ln.drop 2).map fun c => if 0x61#8 ≤ c ∧ c ≤ 0x66#8 then c - 0x20#8 else c) s =
      lineResponse ln s

/-! ### Lines, decoding and encoding -/

/-- R91: stripping takes off the maximal suffix of CR and LF characters and nothing else. -/
def Obligations.StripTakesExactlyTheTerminators : Prop :=
  ∀ raw : Line, ∃ ts : Line, raw = strip raw ++ ts ∧ (∀ c ∈ ts, c = 0x0D#8 ∨ c = 0x0A#8) ∧
    (strip raw).getLast? ≠ some 0x0D#8 ∧ (strip raw).getLast? ≠ some 0x0A#8

/-- R91, R95: every well-formed instruction's line, with any terminators pushed after it, decodes to the instruction. -/
def Obligations.EncodedRecordsDecodeBack : Prop :=
  ∀ (i : Instr) (ts : Line), i.wellFormed = true → (∀ c ∈ ts, c = 0x0D#8 ∨ c = 0x0A#8) →
    decode (encode i ++ ts) = .ok i

/-- R95, R104: a raw line that decodes to `i` is, stripped, the line of `i`; and a raw line decodes to no instruction only
when its stripped line has no good marker. -/
def Obligations.DecodingLosesNoCharacter : Prop :=
  ∀ raw : Line, (∀ i, decode raw = .ok i → encode i = strip raw ∧ i.isStripped = true) ∧
    ((∃ e, decode raw = .error e) ↔ recType (strip raw) = none)

/-- R95, R111: the table's ten marker words and four that are none (the codes before `0` and after `9`, a lower-case
letter, the marker swapped). -/
def Obligations.MarkerWordsDecode : Prop :=
  decode [0x53#8, 0x30#8] = .ok (.s0 []) ∧ decode [0x53#8, 0x31#8] = .ok (.s1 []) ∧
  decode [0x53#8, 0x32#8] = .ok (.s2 []) ∧ decode [0x53#8, 0x33#8] = .ok (.s3 []) ∧
  decode [0x53#8, 0x34#8] = .ok (.s4 []) ∧ decode [0x53#8, 0x35#8] = .ok (.s5 []) ∧
  decode [0x53#8, 0x36#8] = .ok (.s6 []) ∧ decode [0x53#8, 0x37#8] = .ok (.s7 []) ∧
  decode [0x53#8, 0x38#8] = .ok (.s8 []) ∧ decode [0x53#8, 0x39#8] = .ok (.s9 []) ∧
  decode [0x53#8, 0x2F#8] = .error (.badTypeDigit 0x2F#8) ∧ decode [0x53#8, 0x3A#8] = .error (.badTypeDigit 0x3A#8) ∧
  decode [0x73#8, 0x31#8] = .error (.badLetter 0x73#8) ∧ decode [0x31#8, 0x53#8] = .error (.badLetter 0x31#8)

/-- R103: a data record composed of any address its type can hold and any data that fit the byte count completes with `OK`
and its own address and data, in every state that expects its type and whose window holds its address, in either mode. -/
def Obligations.ComposedDataRecordsAreAccepted : Prop :=
  ∀ (a : Word) (ds : List Byte) (s : State), s.rmin.toNat ≤ a.toNat → a.toNat ≤ s.rmax.toNat →
    ∀ p ∈ [(Instr.s1, 1#4, 4), (Instr.s2, 2#4, 6), (Instr.s3, 3#4, 8)],
      expType s.ctrl = p.2.1 → a.toNat < 16 ^ p.2.2 → ds.length + p.2.2 / 2 + 1 ≤ 255 →
        exec (p.1 (composeData p.2.1 a ds)) s = .next { s with
          raw := []
          rsp := some { ridx := s.ridx, body := .processed true 0#4 (.decoded a ds) (some a) } }

/-! ### The whole machine -/

/-- The invariants of R38 hold after reset. -/
def Obligations.InvariantHoldsAfterReset : Prop := State.reset.Inv

/-- R38: every step keeps the invariants, from every state that has them. -/
def Obligations.EveryStepKeepsTheInvariant : Prop :=
  ∀ s t : State, s.Inv → step s = .next t → t.Inv

/-- R23: no step but a configuration write or a reset changes a configuration register. -/
def Obligations.OnlyTheHostChangesTheConfiguration : Prop :=
  ∀ s t : State, step s = .next t → s.events.head? ≠ some .reset → (∀ n v, s.events.head? ≠ some (.cfgWrite n v)) →
    t.ctrl = s.ctrl ∧ t.rmin = s.rmin ∧ t.rmax = s.rmax

/-- R31: a step writes the record index only when a response is taken, by one modulo `2^32`, or at a reset. -/
def Obligations.OnlyTakingAResponseAdvancesTheIndex : Prop :=
  ∀ s t : State, step s = .next t →
    t.ridx = if s.events.head? = some .reset then 0#32
      else if s.events.head? = some .takeResponse ∧ s.rspValid = true then s.ridx + 1#32 else s.ridx

/-- R29, R263: a waiting response is the same after every step but the one that takes it and a reset, and no character is
accepted meanwhile. -/
def Obligations.WaitingResponseStaysUntilTaken : Prop :=
  ∀ (s t : State) (r : Response), s.rsp = some r → step s = .next t →
    s.events.head? ≠ some .takeResponse → s.events.head? ≠ some .reset → t.rsp = some r ∧ t.raw = s.raw

/-- R74, R255: the response to a line is fixed by the stripped line, the configuration registers and the record index at its
end of record; nothing else of the state shows in it. -/
def Obligations.ResponseDependsOnLineAndConfigurationOnly : Prop :=
  ∀ s s' t t' : State, strip s.raw = strip s'.raw → s.ctrl = s'.ctrl → s.rmin = s'.rmin → s.rmax = s'.rmax →
    s.ridx = s'.ridx → perform .endRecord s = .next t → perform .endRecord s' = .next t' → t.rsp = t'.rsp

/-- R361: under the reset configuration no data record gets `OK`; a non-data record still does exactly when it is well
formed. -/
def Obligations.ResetConfigurationIsFailClosed : Prop :=
  ∀ (ln : Line) (t : BitVec 4), recType ln = some t →
    let v := validate ln (expType State.reset.ctrl) State.reset.rmin State.reset.rmax (stopBit State.reset.ctrl)
    (isData t = true → v.vOk = false ∧ v.vReasons.getLsbD 0 = true ∧ v.vReasons.getLsbD 2 = true) ∧
    (isData t = false → (v.vOk = true ↔ wellFormedRecord ln = true))

/-- R74, R264, R265: a block at rest that is given the lines of a file one after another answers each, in order, with the
record indices counting on, and is at rest again with its configuration unchanged. The script and the replies are the
model's own (notes/assumptions 1 and 2). -/
def Obligations.PresentedFileIsAnsweredLineByLine : Prop :=
  ∀ (raws : List Line) (s : State) (rest : List Event), s.raw = [] → s.rsp = none →
    s.events = presentLines raws ++ rest →
      Host.Core.run Sys2Proof.core (presentLines raws).length s = .next { s with
        ridx := s.ridx + BitVec.ofNat 32 raws.length
        events := rest
        replies := s.replies ++ (fileResponses s s.ridx raws).map .response }

/-- R265: the source's `validate` as events: from a block at rest it ends with a response that carries the validator's
verdict of these operands. The script and the replies are the model's own (notes/assumptions 1 and 2, DESIGN CHOICE). -/
def Obligations.ValidateEventsGiveTheVerdict : Prop :=
  ∀ (raw : Line) (exptype : BitVec 4) (lo hi : Word) (stop : Bool) (s : State),
    (strip raw).length ≤ Config.LMAX → s.raw = [] → s.rsp = none → s.events = validateEvents raw exptype lo hi stop →
      ∃ t r, Host.Core.run Sys2Proof.core s.events.length s = .next t ∧ t.replies = s.replies ++ [.response r] ∧
        r.vOk = some (validate (strip raw) exptype lo hi stop).vOk ∧
        r.vReasons = some (validate (strip raw) exptype lo hi stop).vReasons ∧
        r.outcome = some (decodeRecord (strip raw)) ∧ t.complete = true

/-- R262: in a clock cycle a reset happens alone; otherwise a taken response comes first, then a pushed character, then the
end of record, then a configuration access: so a configuration write in the cycle of a line's last character misses that
line. The ports are the model's reading of R261's informative sketch (notes/assumptions 16, DESIGN CHOICE): signals judged
on the state at the cycle's beginning, an empty beat without `rec_last` a pushed character; and the cycle's events stand in
the model's own script (notes/assumptions 1). -/
def Obligations.ClockCycleOrdersItsEvents : Prop :=
  ∀ (p : PortInputs) (s : State),
    (p.rst = true → cycleEvents p s = [.reset]) ∧
    (p.rst = false → cycleEvents p s = responseEvents p s ++ recordEvents p s ++ configEvents p) ∧
    (p.rst = false → p.recValid = true → p.recLast = true → p.recEmpty = false → s.rsp = none →
      cycleEvents p s = .pushChar p.recChar :: .endRecord :: configEvents p ∧
      ∃ t, Host.Core.run Sys2Proof.core (cycleEvents p s).length (s.withCycle p) = .next t ∧
        t.rsp = some (lineResponse (strip (s.raw ++ [p.recChar])) s))

/-! ### The annex: the flash image (outside the block) -/

/-- R284: a write outside the image fails; one inside returns the number of bytes and changes exactly the bytes it writes,
byte `k` at `index + k`. For an image within the 32-bit space, held in canonical form. -/
def Obligations.ImageWriteIsBoundsChecked : Prop :=
  ∀ (img : FlashImage) (address : Word) (data : List Byte), img.wf = true →
    img.offset.toNat + img.size.toNat ≤ 2 ^ 32 →
    let index : Int := (address.toNat : Int) - (img.offset.toNat : Int)
    (index < 0 ∨ (img.size.toNat : Int) < index + data.length → img.write address data = none) ∧
    (0 ≤ index → index + data.length ≤ (img.size.toNat : Int) →
      ∃ img', img.write address data = some (img', BitVec.ofNat 32 data.length) ∧
        img'.offset = img.offset ∧ img'.size = img.size ∧ img'.fillByte = img.fillByte ∧
        ∀ k : Nat, img'.byteAt k =
          if index ≤ k ∧ (k : Int) < index + data.length then data.getD ((k : Int) - index).toNat 0#8 else img.byteAt k)

/-- Whatever responses are applied, an image keeps its canonical form, and its geometry and fill byte. The canonical form is
the model's own (notes/assumptions 11, DEDUCED; for an image past the 32-bit space notes/assumptions 13, DEDUCED); that
offset, size and fill byte are immutable is R280's, the application of the responses R285's. -/
def Obligations.LoadingKeepsTheImageWellFormed : Prop :=
  ∀ (rs : List Response) (img : FlashImage) (total : Nat), img.wf = true →
    let after := (img.applyResponses total rs).image
    after.wf = true ∧ after.offset = img.offset ∧ after.size = img.size ∧ after.fillByte = img.fillByte

/-- R282: after `erase` every byte is the fill byte, whatever was loaded before, geometry and fill byte stay, and erasing
again changes nothing. R287, R291: so the checksum then depends on the size and the fill byte alone; the CRC algorithm is
the model's (notes/assumptions 12, PRESUMED). That an index at or beyond the size reads as the fill byte too is the model's
(notes/assumptions 11, DEDUCED). -/
def Obligations.EraseForgetsTheLoadHistory : Prop :=
  ∀ (img : FlashImage) (p : CrcParams),
    img.erase.erase = img.erase ∧ img.erase.offset = img.offset ∧ img.erase.size = img.size ∧
    img.erase.fillByte = img.fillByte ∧ (∀ k, img.erase.byteAt k = img.fillByte) ∧
    img.erase.buffer = List.replicate img.size.toNat img.fillByte ∧
    ∀ img' : FlashImage, img'.size = img.size → img'.fillByte = img.fillByte →
      img'.erase.checksumWith p = img.erase.checksumWith p

/-- R291: writing `0A 0B 0C` at the image's first address changes the checksum of a fresh image, whatever the open CRC
parameters (R287); writing the same bytes there again changes nothing. The CRC algorithm is the model's
(notes/assumptions 12, PRESUMED). -/
def Obligations.ContentChangesTheChecksum : Prop :=
  ∀ (offset size : Word) (p : CrcParams), 3 ≤ size.toNat → offset.toNat + size.toNat ≤ 2 ^ 32 →
    ∃ img, (FlashImage.constructDefault offset size).write offset [0x0A#8, 0x0B#8, 0x0C#8] = some (img, 3#32) ∧
      img.checksumWith p ≠ (FlashImage.constructDefault offset size).checksumWith p ∧
      img.write offset [0x0A#8, 0x0B#8, 0x0C#8] = some (img, 3#32)

/-- R291: two writes to disjoint ranges of one image give the same image, and so the same checksum, in either order. -/
def Obligations.DisjointWritesCommute : Prop :=
  ∀ (img a b ab ba : FlashImage) (x y : Word) (dx dy : List Byte) (n m n' m' : Word), img.wf = true →
    img.offset.toNat + img.size.toNat ≤ 2 ^ 32 → x.toNat + dx.length ≤ y.toNat →
    img.write x dx = some (a, n) → a.write y dy = some (ab, m) →
    img.write y dy = some (b, m') → b.write x dx = some (ba, n') → ab = ba ∧ n = n' ∧ m = m'

/-- R285: a load stops at the first response that is no result or does not fit, reports it with its record index, and leaves
the image as the responses before it made it. -/
def Obligations.AbortedLoadKeepsEarlierWrites : Prop :=
  ∀ (before rest : List Response) (bad : Response) (img : FlashImage) (total : Nat),
    (∃ n, (img.applyResponses total before).result = .completed n) →
    let upTo := (img.applyResponses total before).image
    (bad.loadable = false ∨ ∃ a ds, bad.outcome = some (.decoded a ds) ∧ upTo.write a ds = none) →
    ∃ report, img.applyResponses total (before ++ bad :: rest) = { image := upTo, result := .aborted report } ∧
      report.ridx = bad.ridx

/-- R285: `loadFile` on the lines of a file is the block's own run on them: the responses it hands over, applied in order.
The script and the replies are the model's own (notes/assumptions 1 and 2). -/
def Obligations.LoadFileIsTheRunOfTheBlock : Prop :=
  ∀ (raws : List Line) (s : State) (img : FlashImage), s.raw = [] → s.rsp = none → s.replies = [] →
    s.events = presentLines raws →
      ∃ t, Host.Core.run Sys2Proof.core s.events.length s = .next t ∧ t.complete = true ∧
        img.loadFile s raws = img.applyResponses 0 (responsesOf t.replies)
end

