-- ==== Sys2Proof/Laws/Memory.lean ====
section
/-! SUPPORT. The annex's byte memory: a read after a write, the other places left alone, and the canonical form kept by
every operation and determined by what is read. -/

namespace Sys2Proof.Machine

variable {fill : Byte}

theorem Memory.read_write (m : Memory) (a : Nat) (b : Byte) (a' : Nat) (h : Memory.wf fill m = true) :
    Memory.read fill (Memory.write fill m a b) a' = if a' = a then b else Memory.read fill m a' := by
  induction m with
  | nil => by_cases hb : b = fill <;> by_cases ha : a' = a <;> simp [Memory.write, Memory.read, hb, ha, Ne.symm]
  | cons c rest ih =>
    obtain ⟨k, v⟩ := c
    simp only [Memory.wf, Bool.and_eq_true, bne_iff_ne, ne_eq, List.all_eq_true, decide_eq_true_eq] at h
    obtain ⟨⟨hv, hk⟩, hr⟩ := h
    have low : ∀ x, x ≤ k → Memory.read fill rest x = fill := by
      intro x hx
      have key : ∀ l : Memory, (∀ c ∈ l, k < c.1) → Memory.read fill l x = fill := by
        intro l
        induction l with
        | nil => intro _; rfl
        | cons d l ih =>
          intro hl
          have h1 := hl d List.mem_cons_self
          have h2 := ih fun e he => hl e (List.mem_cons_of_mem _ he)
          obtain ⟨dk, dv⟩ := d
          simp only [Memory.read]
          rw [if_neg (by simp at h1; omega), h2]
      exact key rest hk
    simp only [Memory.write]
    split
    · rename_i hak
      split
      · rename_i hb
        by_cases ha : a' = a
        · subst ha; subst hb
          simp only [if_true, Memory.read]
          rw [if_neg (by omega), low _ (by omega)]
        · simp [ha]
      · by_cases ha : a' = a
        · subst ha; simp [Memory.read]
        · simp [Memory.read, ha, Ne.symm ha]
    · split
      · rename_i hak
        subst hak
        split
        · rename_i hb
          by_cases ha : a' = a
          · subst ha; subst hb; simp [low _ (le_refl _)]
          · simp [Memory.read, ha, Ne.symm ha]
        · by_cases ha : a' = a
          · subst ha; simp [Memory.read]
          · simp [Memory.read, ha, Ne.symm ha]
      · rename_i h1 h2
        simp only [Memory.read, ih hr]
        by_cases hk' : k = a'
        · subst hk'; simp [Ne.symm h2]
        · simp [hk']

theorem Memory.mem_write {m : Memory} {a : Nat} {b : Byte} {c : Host.Cell} (h : c ∈ Memory.write fill m a b) :
    c.1 = a ∨ c ∈ m := by
  induction m with
  | nil => simp only [Memory.write] at h; split at h <;> simp_all
  | cons d rest ih =>
    obtain ⟨k, v⟩ := d
    simp only [Memory.write] at h
    split at h
    · split at h <;> simp_all; grind
    · split at h
      · split at h <;> simp_all; grind
      · simp only [List.mem_cons] at h ⊢
        rcases h with h | h
        · exact .inr (.inl h)
        · rcases ih h with h | h
          · exact .inl h
          · exact .inr (.inr h)

theorem Memory.wf_write {m : Memory} (a : Nat) (b : Byte) (h : Memory.wf fill m = true) :
    Memory.wf fill (Memory.write fill m a b) = true := by
  induction m with
  | nil => by_cases hb : b = fill <;> simp [Memory.write, Memory.wf, hb]
  | cons c rest ih =>
    obtain ⟨k, v⟩ := c
    have h' := h
    simp only [Memory.wf, Bool.and_eq_true, bne_iff_ne, ne_eq, List.all_eq_true, decide_eq_true_eq] at h
    obtain ⟨⟨hv, hk⟩, hr⟩ := h
    simp only [Memory.write]
    split
    · rename_i hak
      split
      · exact h'
      · rename_i hb
        simp only [Memory.wf, Bool.and_eq_true, bne_iff_ne, ne_eq, List.all_eq_true, decide_eq_true_eq]
        refine ⟨⟨hb, ?_⟩, ⟨hv, hk⟩, hr⟩
        intro c hc
        rcases List.mem_cons.1 hc with rfl | hc
        · exact hak
        · exact lt_trans hak (hk c hc)
    · split
      · rename_i hak
        subst hak
        split
        · exact hr
        · rename_i hb
          simp only [Memory.wf, Bool.and_eq_true, bne_iff_ne, ne_eq, List.all_eq_true, decide_eq_true_eq]
          exact ⟨⟨hb, hk⟩, hr⟩
      · rename_i h1 h2
        simp only [Memory.wf, Bool.and_eq_true, bne_iff_ne, ne_eq, List.all_eq_true, decide_eq_true_eq]
        refine ⟨⟨hv, ?_⟩, ih hr⟩
        intro c hc
        rcases Memory.mem_write hc with hc | hc
        · omega
        · exact hk c hc

theorem Memory.wf_writeBytes {m : Memory} (a : Nat) (bs : List Byte) (h : Memory.wf fill m = true) :
    Memory.wf fill (Memory.writeBytes fill m a bs) = true := by
  induction bs generalizing m a with
  | nil => exact h
  | cons b bs ih => exact ih _ (Memory.wf_write a b h)

theorem Memory.within_write {n : Nat} {m : Memory} {a : Nat} (b : Byte) (ha : a < n)
    (h : Memory.within n m = true) : Memory.within n (Memory.write fill m a b) = true := by
  simp only [Memory.within, List.all_eq_true, decide_eq_true_eq] at h ⊢
  intro c hc
  rcases Memory.mem_write hc with hc | hc
  · omega
  · exact h c hc

theorem Memory.within_writeBytes {n : Nat} {m : Memory} {a : Nat} {bs : List Byte} (ha : a + bs.length ≤ n)
    (h : Memory.within n m = true) : Memory.within n (Memory.writeBytes fill m a bs) = true := by
  induction bs generalizing m a with
  | nil => exact h
  | cons b bs ih =>
    simp only [List.length_cons] at ha
    exact ih (by omega) (Memory.within_write b (by omega) h)

/-- What consecutive bytes leave to be read: themselves in their places, the rest as before. -/
theorem Memory.read_writeBytes (m : Memory) (a : Nat) (bs : List Byte) (x : Nat) (h : Memory.wf fill m = true) :
    Memory.read fill (Memory.writeBytes fill m a bs) x =
      if a ≤ x then (bs[x - a]?).getD (Memory.read fill m x) else Memory.read fill m x := by
  induction bs generalizing m a with
  | nil => simp [Memory.writeBytes]
  | cons b bs ih =>
    simp only [Memory.writeBytes, ih _ _ (Memory.wf_write a b h), Memory.read_write m a b x h]
    rcases Nat.lt_trichotomy x a with hx | hx | hx
    · rw [if_neg (by omega), if_neg (by omega), if_neg (by omega)]
    · subst hx
      simp
    · have hne : x ≠ a := by omega
      have hle : a ≤ x := by omega
      have hle' : a + 1 ≤ x := by omega
      rw [if_pos hle', if_pos hle, if_neg hne]
      obtain ⟨d, hd⟩ : ∃ d, x - a = d + 1 := ⟨x - a - 1, by omega⟩
      have : x - (a + 1) = d := by omega
      rw [this, hd, List.getElem?_cons_succ]

/-- The canonical form holds no choice: two memories that read alike are one. -/
theorem Memory.ext_of_read {m m' : Memory} (h : Memory.wf fill m = true) (h' : Memory.wf fill m' = true)
    (hr : ∀ a, Memory.read fill m a = Memory.read fill m' a) : m = m' := by
  have out : ∀ (l : Memory) (x : Nat), (∀ c ∈ l, x < c.1) → Memory.read fill l x = fill := by
    intro l x
    induction l with
    | nil => intro _; rfl
    | cons d l ih =>
      intro hl
      obtain ⟨k, v⟩ := d
      have h1 := hl (k, v) List.mem_cons_self
      simp only [Memory.read]
      rw [if_neg (by simp at h1; omega), ih fun e he => hl e (List.mem_cons_of_mem _ he)]
  induction m generalizing m' with
  | nil =>
    cases m' with
    | nil => rfl
    | cons c rest =>
      obtain ⟨k, v⟩ := c
      have := hr k
      simp only [Memory.wf, Bool.and_eq_true, bne_iff_ne, ne_eq] at h'
      simp [Memory.read] at this
      exact absurd this.symm h'.1.1
  | cons c rest ih =>
    obtain ⟨k, v⟩ := c
    simp only [Memory.wf, Bool.and_eq_true, bne_iff_ne, ne_eq, List.all_eq_true, decide_eq_true_eq] at h
    obtain ⟨⟨hv, hk⟩, hw⟩ := h
    cases m' with
    | nil =>
      have := hr k
      simp [Memory.read] at this
      exact absurd this hv
    | cons c' rest' =>
      obtain ⟨k', v'⟩ := c'
      simp only [Memory.wf, Bool.and_eq_true, bne_iff_ne, ne_eq, List.all_eq_true, decide_eq_true_eq] at h'
      obtain ⟨⟨hv', hk'⟩, hw'⟩ := h'
      have hkk : k = k' := by
        rcases Nat.lt_trichotomy k k' with hlt | heq | hlt
        · have := hr k
          simp only [Memory.read, if_true] at this
          rw [if_neg (by omega), out rest' k fun c hc => lt_trans hlt (hk' c hc)] at this
          exact absurd this hv
        · exact heq
        · have := hr k'
          simp only [Memory.read, if_true] at this
          rw [if_neg (by omega), out rest k' fun c hc => lt_trans hlt (hk c hc)] at this
          exact absurd this.symm hv'
      subst hkk
      have hvv : v = v' := by simpa [Memory.read] using hr k
      subst hvv
      have : rest = rest' := by
        refine ih hw hw' fun a => ?_
        by_cases ha : k = a
        · subst ha; rw [out rest k hk, out rest' k hk']
        · simpa [Memory.read, ha] using hr a
      rw [this]

theorem Memory.wf_normalize (n : Nat) (cells : Memory) : Memory.wf fill (Memory.normalize fill n cells) = true := by
  unfold Memory.normalize
  generalize cells.filter _ = l
  have key : ∀ (l m : Memory), Memory.wf fill m = true →
      Memory.wf fill (l.foldl (fun m c => Memory.write fill m c.1 c.2) m) = true := by
    intro l
    induction l with
    | nil => intro m h; exact h
    | cons c l ih => intro m h; exact ih _ (Memory.wf_write _ _ h)
  exact key l [] rfl

theorem Memory.within_normalize (n : Nat) (cells : Memory) :
    Memory.within n (Memory.normalize fill n cells) = true := by
  unfold Memory.normalize
  have key : ∀ (l m : Memory), (∀ c ∈ l, c.1 < n) → Memory.within n m = true →
      Memory.within n (l.foldl (fun m c => Memory.write fill m c.1 c.2) m) = true := by
    intro l
    induction l with
    | nil => intro m _ h; exact h
    | cons c l ih =>
      intro m hl h
      exact ih _ (fun d hd => hl d (List.mem_cons_of_mem _ hd))
        (Memory.within_write _ (hl c List.mem_cons_self) h)
  exact key _ [] (by simp) rfl

end Sys2Proof.Machine
end

