-- ==== Sys2Proof/Laws/Image.lean ====
section
/-! SUPPORT. What a write to the annex's image can do. -/

namespace Sys2Proof.Machine

theorem FlashImage.wf_iff (img : FlashImage) :
    img.wf = true ↔ Memory.wf img.fillByte img.cells = true ∧ Memory.within img.size.toNat img.cells = true := by
  simp [FlashImage.wf]

theorem FlashImage.not_oversize {img : FlashImage} (h : img.offset.toNat + img.size.toNat ≤ 2 ^ 32) :
    img.oversize = false := by
  simp [FlashImage.oversize]; omega

/-- The bounds check, in natural numbers. -/
theorem FlashImage.inBounds_iff (img : FlashImage) (x : Word) (d : List Byte) : img.inBounds x d = true ↔
    img.offset.toNat ≤ x.toNat ∧ x.toNat + d.length ≤ img.offset.toNat + img.size.toNat := by
  simp only [FlashImage.inBounds, Bool.and_eq_true, decide_eq_true_eq]
  simp only [FlashImage.index]
  constructor
  · rintro ⟨h1, h2⟩; constructor <;> omega
  · rintro ⟨h1, h2⟩; constructor <;> omega

/-- Every image operation that ends well keeps the canonical form and the geometry. -/
theorem FlashImage.write_keeps {img img' : FlashImage} {x : Word} {d : List Byte} {n : Word} (h : img.wf = true)
    (hw : img.write x d = some (img', n)) :
    img'.wf = true ∧ img'.offset = img.offset ∧ img'.size = img.size ∧ img'.fillByte = img.fillByte := by
  unfold FlashImage.write at hw
  split at hw
  · simp only [FlashImage.openWrite, Option.map_eq_some_iff] at hw
    obtain ⟨⟨c, m⟩, _, h2⟩ := hw
    injection h2 with h2 _; subst h2
    exact ⟨(FlashImage.wf_iff _).2 ⟨Memory.wf_normalize _ _, Memory.within_normalize _ _⟩, rfl, rfl, rfl⟩
  · split at hw
    · rename_i hb
      injection hw with hw; injection hw with hw _; subst hw
      rw [FlashImage.inBounds_iff] at hb
      rw [FlashImage.wf_iff] at h
      refine ⟨(FlashImage.wf_iff _).2 ⟨Memory.wf_writeBytes _ _ h.1, Memory.within_writeBytes ?_ h.2⟩, rfl, rfl, rfl⟩
      simp only [FlashImage.index]; omega
    · cases hw

end Sys2Proof.Machine
end

