-- ==== Sys2Proof/Laws/Line.lean ====
section
/-! SUPPORT. The small lemmas of the line's primitives: stripping, hex digits, hex-pairs, the marker, the overrun test. -/

namespace Sys2Proof

section overrun

theorem Config.overlong_iff (n : Nat) : Config.overlong n = true ↔ Config.LMAX < n := by
  simp only [Config.overlong, Config.LMAX, decide_eq_true_eq]; omega

theorem Config.overlong_eq_false_iff (n : Nat) : Config.overlong n = false ↔ n ≤ Config.LMAX := by
  rw [← Bool.not_eq_true, Config.overlong_iff]; omega

theorem Config.le_lmax : 514 ≤ Config.LMAX := by unfold Config.LMAX; omega

theorem Config.lmax_even : Config.LMAX % 2 = 0 := by unfold Config.LMAX; omega

end overrun

section strip

@[simp] theorem strip_nil : strip [] = [] := rfl

theorem strip_cons_of_nil {c : Byte} {cs : Line} (h : strip cs = []) :
    strip (c :: cs) = if isTerminator c then [] else [c] := by
  simp [strip, h]

theorem strip_cons_of_ne_nil {c : Byte} {cs : Line} (h : strip cs ≠ []) : strip (c :: cs) = c :: strip cs := by
  cases hs : strip cs with
  | nil => exact absurd hs h
  | cons d ds => simp [strip, hs]

/-- A run of terminators strips to nothing. -/
theorem strip_terminators {ts : Line} (h : ∀ c ∈ ts, isTerminator c = true) : strip ts = [] := by
  induction ts with
  | nil => rfl
  | cons c cs ih =>
    rw [strip_cons_of_nil (ih fun d hd => h d (List.mem_cons_of_mem _ hd)), if_pos (h c List.mem_cons_self)]

/-- Stripping never lengthens. -/
theorem strip_length_le (raw : Line) : (strip raw).length ≤ raw.length := by
  induction raw with
  | nil => simp
  | cons c cs ih =>
    by_cases h : strip cs = []
    · rw [strip_cons_of_nil h]; split <;> simp
    · rw [strip_cons_of_ne_nil h]; simpa using ih

/-- A nonempty line whose last character is no terminator is its own strip. -/
theorem strip_eq_self {ln : Line} {c : Byte} (h : ln.getLast? = some c) (hc : isTerminator c = false) :
    strip ln = ln := by
  induction ln with
  | nil => simp at h
  | cons d ds ih =>
    cases ds with
    | nil =>
      simp only [List.getLast?_singleton, Option.some.injEq] at h
      simp [strip, h, hc]
    | cons e es =>
      have hs : strip (e :: es) = e :: es := ih (by simpa [List.getLast?_cons_cons] using h)
      rw [strip_cons_of_ne_nil (by simp [hs]), hs]

end strip

namespace Machine

section hex

theorem hexval_lt {c : Byte} {d : Nat} (h : hexval c = some d) : d < 16 := by
  simp only [hexval, BitVec.le_def] at h
  split at h
  · simp only [Option.some.injEq, BitVec.toNat_ofNat] at *; omega
  · split at h
    · simp only [Option.some.injEq, BitVec.toNat_ofNat] at *; omega
    · split at h
      · simp only [Option.some.injEq, BitVec.toNat_ofNat] at *; omega
      · cases h

theorem hexPair_some {hi lo b : Byte} :
    hexPair hi lo = some b ↔ ∃ h l, hexval hi = some h ∧ hexval lo = some l ∧ b = BitVec.ofNat 8 (16 * h + l) := by
  unfold hexPair
  cases hexval hi <;> cases hexval lo <;> simp [eq_comm]

theorem hexPair_isSome (hi lo : Byte) : (hexPair hi lo).isSome = (ishex hi && ishex lo) := by
  unfold hexPair ishex
  cases hexval hi <;> cases hexval lo <;> rfl

@[simp] theorem hexPairs_nil : hexPairs [] = some [] := rfl

theorem hexPairs_cons_some {hi lo : Byte} {cs : Line} {out : List Byte} :
    hexPairs (hi :: lo :: cs) = some out ↔ ∃ b bs, hexPair hi lo = some b ∧ hexPairs cs = some bs ∧ out = b :: bs := by
  conv => lhs; unfold hexPairs
  cases hexPair hi lo <;> cases hexPairs cs <;> simp [eq_comm]

/-- Characters cut into pairs exactly when their number is even and all are hex. -/
theorem hexPairs_isSome (cs : Line) : (hexPairs cs).isSome = (decide (cs.length % 2 = 0) && cs.all ishex) := by
  induction cs using List.twoStepInduction with
  | nil => rfl
  | singleton c => simp [hexPairs]
  | cons_cons hi lo cs ih _ =>
    have hp := hexPair_isSome hi lo
    have hl : (cs.length + 1 + 1) % 2 = cs.length % 2 := by omega
    rw [hexPairs]
    cases h1 : hexPair hi lo <;> cases h2 : hexPairs cs <;> simp_all
theorem hexPairs_length {cs : Line} {bs : List Byte} (h : hexPairs cs = some bs) : cs.length = 2 * bs.length := by
  induction cs using List.twoStepInduction generalizing bs with
  | nil => simp at h; subst h; simp
  | singleton c => simp [hexPairs] at h
  | cons_cons hi lo cs ih _ =>
    obtain ⟨b, bs', -, h2, rfl⟩ := hexPairs_cons_some.1 h
    simp [ih h2]; omega

/-- Pair number `k` of the cut is the characters `2k` and `2k + 1`. -/
theorem hexPairs_getElem? {cs : Line} {bs : List Byte} (h : hexPairs cs = some bs) (k : Nat) :
    bs[k]? = pair cs (2 * k) := by
  induction cs using List.twoStepInduction generalizing bs k with
  | nil => simp at h; subst h; simp [pair]
  | singleton c => simp [hexPairs] at h
  | cons_cons hi lo cs ih _ =>
    obtain ⟨b, bs', h1, h2, rfl⟩ := hexPairs_cons_some.1 h
    cases k with
    | zero => simp [pair, h1]
    | succ k =>
      have : 2 * (k + 1) = 2 * k + 2 := by ring
      simpa [pair, this] using ih h2 k

theorem hexPairs_append {cs ds : Line} {bs es : List Byte} (h : hexPairs cs = some bs) (h' : hexPairs ds = some es) :
    hexPairs (cs ++ ds) = some (bs ++ es) := by
  induction cs using List.twoStepInduction generalizing bs with
  | nil => simp at h; subst h; simp [h']
  | singleton c => simp [hexPairs] at h
  | cons_cons hi lo cs ih _ =>
    obtain ⟨b, bs', h1, h2, rfl⟩ := hexPairs_cons_some.1 h
    exact hexPairs_cons_some.2 ⟨b, bs' ++ es, h1, ih h2, rfl⟩

theorem hexDigits_lt {cs : Line} {acc v : Nat} (h : hexDigits acc cs = some v) : v < (acc + 1) * 16 ^ cs.length := by
  induction cs generalizing acc with
  | nil => simp [hexDigits] at h; simp [h]
  | cons c cs ih =>
    unfold hexDigits at h
    split at h
    · rename_i d hd
      have := ih h
      have hd := hexval_lt hd
      calc v < (16 * acc + d + 1) * 16 ^ cs.length := this
        _ ≤ ((acc + 1) * 16) * 16 ^ cs.length := Nat.mul_le_mul_right _ (by omega)
        _ = (acc + 1) * 16 ^ (c :: cs).length := by rw [List.length_cons, pow_succ]; ring
    · cases h

theorem hexDigits_isSome (acc : Nat) (cs : Line) : (hexDigits acc cs).isSome = cs.all ishex := by
  induction cs generalizing acc with
  | nil => rfl
  | cons c cs ih =>
    unfold hexDigits
    cases h : hexval c <;> simp [ishex, h, ih]

theorem hexnum_lt {ln : Line} {a n v : Nat} (h : hexnum ln a n = some v) : v < 16 ^ n := by
  unfold hexnum at h
  split at h
  · have := hexDigits_lt h
    rw [List.length_take, List.length_drop] at this
    rwa [Nat.min_eq_left (by omega), Nat.zero_add, Nat.one_mul] at this
  · cases h

end hex

section marker

theorem recType_cons (c d : Byte) (rest : Line) :
    recType (c :: d :: rest) =
      if c = codeS ∧ 0x30#8 ≤ d ∧ d ≤ 0x39#8 then some ((d - 0x30#8).setWidth 4) else none := by
  simp [recType, markerOk]

theorem recType_isSome (ln : Line) : (recType ln).isSome = markerOk ln := by
  unfold recType
  split
  · rename_i h
    match ln, h with
    | _ :: _ :: _, h => simp [h]
  · simp_all

/-- Each instruction's line has a good marker, and its type number. -/
theorem recType_encode (i : Instr) : recType (encode i) = some ((i.typeDigit - 0x30#8).setWidth 4) := by
  cases i <;> simp [encode, recType_cons, Instr.typeDigit]

theorem addrChars_cases (t : BitVec 4) :
    (t = 1#4 ∧ addrChars t = some 4) ∨ (t = 2#4 ∧ addrChars t = some 6) ∨ (t = 3#4 ∧ addrChars t = some 8) ∨
      (isData t = false ∧ addrChars t = none) := by
  revert t; decide

theorem addrChars_isSome (t : BitVec 4) : (addrChars t).isSome = isData t := by revert t; decide

end marker

end Machine

end Sys2Proof
end

