-- ==== Sys2Proof/Laws/State.lean ====
section
/-! SUPPORT. One lemma per field per update of the state, so that no proof unfolds a record update. -/

namespace Sys2Proof.Machine

section fields

variable (s : State)

@[simp] theorem State.report_ctrl (r : Response) : (s.report r).ctrl = s.ctrl := rfl
@[simp] theorem State.report_rmin (r : Response) : (s.report r).rmin = s.rmin := rfl
@[simp] theorem State.report_rmax (r : Response) : (s.report r).rmax = s.rmax := rfl
@[simp] theorem State.report_raw (r : Response) : (s.report r).raw = [] := rfl
@[simp] theorem State.report_rsp (r : Response) : (s.report r).rsp = some r := rfl
@[simp] theorem State.report_ridx (r : Response) : (s.report r).ridx = s.ridx := rfl
@[simp] theorem State.report_events (r : Response) : (s.report r).events = s.events := rfl
@[simp] theorem State.report_replies (r : Response) : (s.report r).replies = s.replies := rfl

@[simp] theorem State.respond_ctrl (ln : Line) : (s.respond ln).ctrl = s.ctrl := rfl
@[simp] theorem State.respond_rmin (ln : Line) : (s.respond ln).rmin = s.rmin := rfl
@[simp] theorem State.respond_rmax (ln : Line) : (s.respond ln).rmax = s.rmax := rfl
@[simp] theorem State.respond_raw (ln : Line) : (s.respond ln).raw = [] := rfl
@[simp] theorem State.respond_rsp (ln : Line) : (s.respond ln).rsp = some (lineResponse ln s) := rfl
@[simp] theorem State.respond_ridx (ln : Line) : (s.respond ln).ridx = s.ridx := rfl
@[simp] theorem State.respond_events (ln : Line) : (s.respond ln).events = s.events := rfl
@[simp] theorem State.respond_replies (ln : Line) : (s.respond ln).replies = s.replies := rfl

@[simp] theorem State.pushRaw_ctrl (c : Byte) : (s.pushRaw c).ctrl = s.ctrl := rfl
@[simp] theorem State.pushRaw_rmin (c : Byte) : (s.pushRaw c).rmin = s.rmin := rfl
@[simp] theorem State.pushRaw_rmax (c : Byte) : (s.pushRaw c).rmax = s.rmax := rfl
@[simp] theorem State.pushRaw_raw (c : Byte) : (s.pushRaw c).raw = s.raw ++ [c] := rfl
@[simp] theorem State.pushRaw_rsp (c : Byte) : (s.pushRaw c).rsp = s.rsp := rfl
@[simp] theorem State.pushRaw_ridx (c : Byte) : (s.pushRaw c).ridx = s.ridx := rfl
@[simp] theorem State.pushRaw_events (c : Byte) : (s.pushRaw c).events = s.events := rfl
@[simp] theorem State.pushRaw_replies (c : Byte) : (s.pushRaw c).replies = s.replies := rfl

@[simp] theorem State.retire_ctrl : (s.retire).ctrl = s.ctrl := rfl
@[simp] theorem State.retire_rmin : (s.retire).rmin = s.rmin := rfl
@[simp] theorem State.retire_rmax : (s.retire).rmax = s.rmax := rfl
@[simp] theorem State.retire_raw : (s.retire).raw = s.raw := rfl
@[simp] theorem State.retire_rsp : (s.retire).rsp = none := rfl
@[simp] theorem State.retire_ridx : (s.retire).ridx = s.ridx + 1#32 := rfl
@[simp] theorem State.retire_events : (s.retire).events = s.events := rfl
@[simp] theorem State.retire_replies : (s.retire).replies = s.replies := rfl

@[simp] theorem State.reply_ctrl (r : Reply) : (s.reply r).ctrl = s.ctrl := rfl
@[simp] theorem State.reply_rmin (r : Reply) : (s.reply r).rmin = s.rmin := rfl
@[simp] theorem State.reply_rmax (r : Reply) : (s.reply r).rmax = s.rmax := rfl
@[simp] theorem State.reply_raw (r : Reply) : (s.reply r).raw = s.raw := rfl
@[simp] theorem State.reply_rsp (r : Reply) : (s.reply r).rsp = s.rsp := rfl
@[simp] theorem State.reply_ridx (r : Reply) : (s.reply r).ridx = s.ridx := rfl
@[simp] theorem State.reply_events (r : Reply) : (s.reply r).events = s.events := rfl
@[simp] theorem State.reply_replies (r : Reply) : (s.reply r).replies = s.replies ++ [r] := rfl

@[simp] theorem State.resetBlock_ctrl : (s.resetBlock).ctrl = 0#32 := rfl
@[simp] theorem State.resetBlock_rmin : (s.resetBlock).rmin = 0xFFFFFFFF#32 := rfl
@[simp] theorem State.resetBlock_rmax : (s.resetBlock).rmax = 0#32 := rfl
@[simp] theorem State.resetBlock_raw : (s.resetBlock).raw = [] := rfl
@[simp] theorem State.resetBlock_rsp : (s.resetBlock).rsp = none := rfl
@[simp] theorem State.resetBlock_ridx : (s.resetBlock).ridx = 0#32 := rfl
@[simp] theorem State.resetBlock_events : (s.resetBlock).events = s.events := rfl
@[simp] theorem State.resetBlock_replies : (s.resetBlock).replies = s.replies := rfl

@[simp] theorem State.cfgWrite_raw (n : BitVec 2) (v : Word) : (s.cfgWrite n v).raw = s.raw := by
  unfold State.cfgWrite; split <;> rfl
@[simp] theorem State.cfgWrite_rsp (n : BitVec 2) (v : Word) : (s.cfgWrite n v).rsp = s.rsp := by
  unfold State.cfgWrite; split <;> rfl
@[simp] theorem State.cfgWrite_ridx (n : BitVec 2) (v : Word) : (s.cfgWrite n v).ridx = s.ridx := by
  unfold State.cfgWrite; split <;> rfl
@[simp] theorem State.cfgWrite_events (n : BitVec 2) (v : Word) : (s.cfgWrite n v).events = s.events := by
  unfold State.cfgWrite; split <;> rfl
@[simp] theorem State.cfgWrite_replies (n : BitVec 2) (v : Word) : (s.cfgWrite n v).replies = s.replies := by
  unfold State.cfgWrite; split <;> rfl

theorem State.cfgWrite_ctrl (v : Word) : s.cfgWrite 0#2 v = { s with ctrl := v &&& ctrlMask } := rfl
theorem State.cfgWrite_rmin (v : Word) : s.cfgWrite 1#2 v = { s with rmin := v } := rfl
theorem State.cfgWrite_rmax (v : Word) : s.cfgWrite 2#2 v = { s with rmax := v } := rfl
theorem State.cfgWrite_reserved (v : Word) : s.cfgWrite 3#2 v = s := rfl

@[simp] theorem State.rspValid_report (r : Response) : (s.report r).rspValid = true := rfl
@[simp] theorem State.rspValid_respond (ln : Line) : (s.respond ln).rspValid = true := rfl
@[simp] theorem State.rspValid_retire : s.retire.rspValid = false := rfl
@[simp] theorem State.rspValid_resetBlock : s.resetBlock.rspValid = false := rfl

theorem State.rspValid_eq_false_iff : s.rspValid = false ↔ s.rsp = none := by
  simp [State.rspValid]

theorem State.rspValid_eq_true_iff : s.rspValid = true ↔ ∃ r, s.rsp = some r := by
  simp [State.rspValid, Option.isSome_iff_exists]

end fields

section reset

@[simp] theorem State.reset_ctrl : State.reset.ctrl = 0#32 := rfl
@[simp] theorem State.reset_rmin : State.reset.rmin = 0xFFFFFFFF#32 := rfl
@[simp] theorem State.reset_rmax : State.reset.rmax = 0#32 := rfl
@[simp] theorem State.reset_raw : State.reset.raw = [] := rfl
@[simp] theorem State.reset_rsp : State.reset.rsp = none := rfl
@[simp] theorem State.reset_ridx : State.reset.ridx = 0#32 := rfl
@[simp] theorem State.reset_events : State.reset.events = [] := rfl
@[simp] theorem State.reset_replies : State.reset.replies = [] := rfl

end reset

end Sys2Proof.Machine
end

