-- ==== Sys2Proof/Laws/Machine.lean ====
section
/-! SUPPORT. What each shared operation and the step can do, said once: the meanings, the events, the step. -/

namespace Sys2Proof.Machine

section meanings

/-- Every record's meaning is the end of record on its own line. -/
theorem exec_eq (i : Instr) (s : State) : exec i s = .next (s.respond (encode i)) := by
  cases i <;> rfl

@[simp] theorem encode_length (i : Instr) : (encode i).length = i.body.length + 2 := rfl

@[simp] theorem lineResponse_ridx (ln : Line) (s : State) : (lineResponse ln s).ridx = s.ridx := by
  unfold lineResponse; split <;> rfl

theorem lineResponse_of_fits {ln : Line} (s : State) (h : ln.length ≤ Config.LMAX) :
    lineResponse ln s = processedResponse ln s.ctrl s.rmin s.rmax s.ridx := by
  simp [lineResponse, (Config.overlong_eq_false_iff _).2 h]

theorem lineResponse_of_overlong {ln : Line} (s : State) (h : Config.LMAX < ln.length) :
    lineResponse ln s = overrunResponse s.ridx := by
  simp [lineResponse, (Config.overlong_iff _).2 h]

end meanings

section decoding

/-- A line that decodes is the encoding of what it decodes to. -/
theorem classify_ok {ln : Line} {i : Instr} (h : classify ln = .ok i) : encode i = ln := by
  match ln, h with
  | c :: d :: body, h =>
    simp only [classify] at h
    split at h
    · rename_i row hr
      injection h with h
      subst h
      have hp := List.find?_some hr
      have hm := List.mem_of_find?_eq_some hr
      simp only [opcodeRows, List.mem_cons, List.not_mem_nil, or_false] at hm
      have split : ∀ w : BitVec 16, markerWord c d &&& 0xFFFF#16 = w → c = w.extractLsb' 8 8 ∧ d = w.extractLsb' 0 8 := by
        rintro w rfl
        have : markerWord c d &&& 0xFFFF#16 = markerWord c d := BitVec.and_allOnes
        rw [this]
        exact ⟨(BitVec.extractLsb'_append_eq_left (a := c) (b := d)).symm,
          (BitVec.extractLsb'_append_eq_right (a := c) (b := d)).symm⟩
      rcases hm with rfl | rfl | rfl | rfl | rfl | rfl | rfl | rfl | rfl | rfl <;>
        · obtain ⟨rfl, rfl⟩ := split _ (beq_iff_eq.1 hp)
          rfl
    · cases h

theorem classify_encode (i : Instr) : classify (encode i) = .ok i := by
  cases i <;> simp only [encode, Instr.typeDigit, Instr.body] <;> rfl

end decoding

section events

/-- The end of record does the same for every line: the response for the stripped line, held. -/
theorem onEndRecord_eq (s : State) : onEndRecord s = .next (s.respond (strip s.raw)) := by
  unfold onEndRecord
  split
  · rename_i i h
    rw [exec_eq, classify_ok h]
  · rfl

/-- The step has three cases: no event to come, an event that waits, an event that happens. -/
theorem step_cases (s : State) :
    (s.events = [] ∧ step s = .next s) ∨
    (∃ e rest, s.events = e :: rest ∧ enabled e s = false ∧ step s = .next s) ∨
    (∃ e rest, s.events = e :: rest ∧ enabled e s = true ∧ step s = perform e { s with events := rest }) := by
  unfold step nextEvent
  cases h : s.events with
  | nil => simp
  | cons e rest => cases he : enabled e s <;> simp [he]

theorem step_of_enabled {s : State} {e : Event} {rest : List Event} (h : s.events = e :: rest)
    (he : enabled e s = true) : step s = perform e { s with events := rest } := by
  simp [step, nextEvent, h, he]

theorem step_of_held {s : State} {e : Event} {rest : List Event} (h : s.events = e :: rest)
    (he : enabled e s = false) : step s = .next s := by
  simp [step, nextEvent, h, he]

/-- What an event makes of the state, as one function. -/
def after (e : Event) (s : State) : State :=
  match e with
  | .reset => s.resetBlock
  | .cfgWrite n v => s.cfgWrite n v
  | .cfgRead n => s.reply (.config (s.cfgRead n))
  | .pushChar c => s.pushRaw c
  | .endRecord => s.respond (strip s.raw)
  | .readData k => s.reply (.data (s.dbuf k))
  | .takeResponse => onTakeResponse s

theorem perform_eq (e : Event) (s : State) : perform e s = .next (after e s) := by
  cases e <;> first | rfl | exact onEndRecord_eq s

/-- A step to `t`: either nothing happened and no event could, or the next event happened. -/
theorem step_next_cases {s t : State} (hs : step s = .next t) :
    (t = s ∧ ∀ e, s.events.head? = some e → enabled e s = false) ∨
    (∃ e rest, s.events = e :: rest ∧ enabled e s = true ∧ t = after e { s with events := rest }) := by
  rcases step_cases s with ⟨h, h'⟩ | ⟨e, rest, h, he, h'⟩ | ⟨e, rest, h, he, h'⟩
  · left; rw [h'] at hs; injection hs with hs; exact ⟨hs.symm, by simp [h]⟩
  · left; rw [h'] at hs; injection hs with hs; exact ⟨hs.symm, by simp [h, he]⟩
  · right; rw [h', perform_eq] at hs; injection hs with hs; exact ⟨e, rest, h, he, hs.symm⟩

/-- Whether an event is enabled does not depend on the script. -/
theorem enabled_events (e : Event) (s : State) (es : List Event) :
    enabled e { s with events := es } = enabled e s := by
  cases e <;> rfl

/-- An event leaves the script alone. -/
theorem after_events (e : Event) (s : State) : (after e s).events = s.events := by
  cases e <;> simp [after, onTakeResponse]
  split <;> simp

end events

section runs

/-- One step of a run, for any machine. -/
theorem run_of_step (M : Host.Core) {s t : M.State} (h : M.step s = .next t) (m : Nat) :
    M.run (m + 1) s = M.run m t := by
  simp [Host.Core.run, h]

/-- A run of `n` steps and then one of `m`, for any machine. -/
theorem run_add (M : Host.Core) (n m : Nat) {s t : M.State} (h : M.run n s = .next t) :
    M.run (n + m) s = M.run m t := by
  induction n generalizing s with
  | zero => simp only [Host.Core.run] at h; injection h with h; subst h; rw [Nat.zero_add]
  | succ n ih =>
    rw [Nat.add_right_comm]
    cases hs : M.step s with
    | next s' => rw [run_of_step M hs] at h ⊢; exact ih h
    | fault r => simp [Host.Core.run, hs] at h
    | refused r => simp [Host.Core.run, hs] at h

end runs

end Sys2Proof.Machine
end

