-- ==== Sys2Proof/Laws/PerInstr.lean ====
section
/-! SUPPORT. Facts about every instruction as syntax, one lemma per constructor. The family `MarkerRow`: the first two
characters of an instruction's line are its own row of the opcode table, and its type number is the digit's. -/

namespace Sys2Proof.Laws.MarkerRow

/-- The line of `i` begins with the pattern of the one row that makes `i`'s kind of record (R95, R111). -/
def Statement (i : Instr) : Prop :=
  ∃ row, rowOf (markerWord codeS i.typeDigit) = some row ∧ row.pattern = markerWord codeS i.typeDigit ∧
    row.make i.body = i ∧ encode i = row.pattern.extractLsb' 8 8 :: row.pattern.extractLsb' 0 8 :: i.body

theorem s0 (body : Line) : Statement (.s0 body) := by
  simp only [Statement, Instr.typeDigit]
  exact ⟨⟨0x5330#16, 0xFFFF#16, .s0⟩, by rfl, by rfl, by rfl, by rfl⟩

theorem s1 (body : Line) : Statement (.s1 body) := by
  simp only [Statement, Instr.typeDigit]
  exact ⟨⟨0x5331#16, 0xFFFF#16, .s1⟩, by rfl, by rfl, by rfl, by rfl⟩

theorem s2 (body : Line) : Statement (.s2 body) := by
  simp only [Statement, Instr.typeDigit]
  exact ⟨⟨0x5332#16, 0xFFFF#16, .s2⟩, by rfl, by rfl, by rfl, by rfl⟩

theorem s3 (body : Line) : Statement (.s3 body) := by
  simp only [Statement, Instr.typeDigit]
  exact ⟨⟨0x5333#16, 0xFFFF#16, .s3⟩, by rfl, by rfl, by rfl, by rfl⟩

theorem s4 (body : Line) : Statement (.s4 body) := by
  simp only [Statement, Instr.typeDigit]
  exact ⟨⟨0x5334#16, 0xFFFF#16, .s4⟩, by rfl, by rfl, by rfl, by rfl⟩

theorem s5 (body : Line) : Statement (.s5 body) := by
  simp only [Statement, Instr.typeDigit]
  exact ⟨⟨0x5335#16, 0xFFFF#16, .s5⟩, by rfl, by rfl, by rfl, by rfl⟩

theorem s6 (body : Line) : Statement (.s6 body) := by
  simp only [Statement, Instr.typeDigit]
  exact ⟨⟨0x5336#16, 0xFFFF#16, .s6⟩, by rfl, by rfl, by rfl, by rfl⟩

theorem s7 (body : Line) : Statement (.s7 body) := by
  simp only [Statement, Instr.typeDigit]
  exact ⟨⟨0x5337#16, 0xFFFF#16, .s7⟩, by rfl, by rfl, by rfl, by rfl⟩

theorem s8 (body : Line) : Statement (.s8 body) := by
  simp only [Statement, Instr.typeDigit]
  exact ⟨⟨0x5338#16, 0xFFFF#16, .s8⟩, by rfl, by rfl, by rfl, by rfl⟩

theorem s9 (body : Line) : Statement (.s9 body) := by
  simp only [Statement, Instr.typeDigit]
  exact ⟨⟨0x5339#16, 0xFFFF#16, .s9⟩, by rfl, by rfl, by rfl, by rfl⟩


end Sys2Proof.Laws.MarkerRow
end

