-- ==== Sys2Proof/Laws/Units.lean ====
section
/-! SUPPORT. What the field readers and the decoder unit can answer, said once for each. -/

namespace Sys2Proof.Machine

/-- The type is `t` exactly when the line begins with `S` and the digit of `t`. -/
theorem recType_some {ln : Line} {t : BitVec 4} : recType ln = some t ↔
    ∃ d rest, ln = 0x53#8 :: d :: rest ∧ 0x30 ≤ d.toNat ∧ d.toNat ≤ 0x39 ∧ t.toNat = d.toNat - 0x30 := by
  match ln with
  | [] => simp [recType, markerOk]
  | [_] => simp [recType, markerOk]
  | c :: d :: rest =>
    rw [recType_cons]
    have hv : 0x30 ≤ d.toNat → d.toNat ≤ 0x39 → ((d - 0x30#8).setWidth 4).toNat = d.toNat - 0x30 := by
      intro h1 h2
      rw [BitVec.toNat_setWidth, BitVec.toNat_sub, BitVec.toNat_ofNat]
      omega
    constructor
    · intro h
      split at h
      · rename_i hc
        obtain ⟨rfl, h1, h2⟩ := hc
        injection h with h
        have h1 : 0x30 ≤ d.toNat := by simpa [BitVec.le_def] using h1
        have h2 : d.toNat ≤ 0x39 := by simpa [BitVec.le_def] using h2
        exact ⟨d, rest, rfl, h1, h2, by rw [← h, hv h1 h2]⟩
      · cases h
    · rintro ⟨d', rest', h, h1, h2, ht⟩
      simp only [List.cons.injEq] at h
      obtain ⟨rfl, rfl, rfl⟩ := h
      rw [if_pos ⟨rfl, by simpa [BitVec.le_def] using h1, by simpa [BitVec.le_def] using h2⟩]
      rw [Option.some.injEq, ← BitVec.toNat_inj, hv h1 h2, ht]

/-- Every character from index 2 on is hex, by index. -/
theorem hexAfterMarker_iff {ln : Line} : hexAfterMarker ln = true ↔ ∀ i c, 2 ≤ i → ln[i]? = some c → (hexval c).isSome := by
  unfold hexAfterMarker
  rw [List.all_eq_true]
  constructor
  · intro h i c hi hc
    apply h
    rw [List.mem_iff_getElem?]
    exact ⟨i - 2, by rw [List.getElem?_drop]; rwa [show 2 + (i - 2) = i by omega]⟩
  · intro h c hc
    obtain ⟨i, hi⟩ := List.mem_iff_getElem?.1 hc
    rw [List.getElem?_drop] at hi
    exact h _ c (by omega) hi

/-- The three address widths. -/
theorem addrChars_some {t : BitVec 4} {w : Nat} : addrChars t = some w ↔ (t = 1#4 ∧ w = 4) ∨ (t = 2#4 ∧ w = 6) ∨ (t = 3#4 ∧ w = 8) := by
  rcases addrChars_cases t with ⟨rfl, h⟩ | ⟨rfl, h⟩ | ⟨rfl, h⟩ | ⟨hd, h⟩
  · simp [h, eq_comm]
  · simp [h, eq_comm]
  · simp [h, eq_comm]
  · simp only [h, reduceCtorEq, false_iff]
    rintro (⟨rfl, -⟩ | ⟨rfl, -⟩ | ⟨rfl, -⟩) <;> cases hd

/-- An address width is even and 4 to 8. -/
theorem addrChars_le {t : BitVec 4} {w : Nat} (h : addrChars t = some w) : w ≤ 8 ∧ w % 2 = 0 ∧ 4 ≤ w := by
  rcases addrChars_some.1 h with ⟨_, rfl⟩ | ⟨_, rfl⟩ | ⟨_, rfl⟩ <;> omega

/-- The data types are those with an address width. -/
theorem isData_iff {t : BitVec 4} : isData t = true ↔ ∃ w, addrChars t = some w := by
  rw [← addrChars_isSome, Option.isSome_iff_exists]

/-- An address field's value fits 32 bits. -/
theorem hexnum_lt32 {ln : Line} {w v : Nat} (hw : w ≤ 8) (h : hexnum ln 4 w = some v) : v < 2 ^ 32 := by
  have := hexnum_lt h
  calc v < 16 ^ w := this
    _ ≤ 16 ^ 8 := Nat.pow_le_pow_right (by omega) hw
    _ = 2 ^ 32 := by norm_num

/-- A long enough, even, all-hex line decodes. -/
theorem decodeData_good {ln : Line} {w : Nat} (hw8 : w ≤ 8 ∧ w % 2 = 0 ∧ 4 ≤ w) (hl : 4 + w + 2 ≤ ln.length) (he : ln.length % 2 = 0) (hh : hexAfterMarker ln = true) :
   ∃ v ds, hexnum ln 4 w = some v ∧ dataField ln w = some ds ∧ decodeData ln w = .decoded (BitVec.ofNat 32 v) ds := by
  have hall : ∀ cs : Line, (∀ c ∈ cs, c ∈ ln.drop 2) → cs.all ishex = true := by
    intro cs h
    rw [List.all_eq_true]
    intro c hc
    exact List.all_eq_true.1 hh c (h c hc)
  have h1 : (hexnum ln 4 w).isSome := by
    unfold hexnum
    rw [if_pos (by omega), hexDigits_isSome]
    apply hall
    intro c hc
    have := List.mem_of_mem_take hc
    rw [show 4 = 2 + 2 from rfl, ← List.drop_drop] at this
    exact List.mem_of_mem_drop this
  have h2 : (dataField ln w).isSome := by
    unfold dataField
    rw [hexPairs_isSome, List.length_take, List.length_drop]
    simp only [Bool.and_eq_true, decide_eq_true_eq]
    refine ⟨by omega, hall _ ?_⟩
    intro c hc
    have := List.mem_of_mem_take hc
    rw [show 4 + w = 2 + (2 + w) by omega, ← List.drop_drop] at this
    exact List.mem_of_mem_drop this
  obtain ⟨v, hv⟩ := Option.isSome_iff_exists.1 h1
  obtain ⟨ds, hd⟩ := Option.isSome_iff_exists.1 h2
  refine ⟨v, ds, hv, hd, ?_⟩
  unfold decodeData
  rw [if_neg (by omega), hh, hv, hd]
  rfl

/-- The three ways a data record's decoding ends, with their conditions. -/
theorem decodeData_cases (ln : Line) {w : Nat} (hw8 : w ≤ 8 ∧ w % 2 = 0 ∧ 4 ≤ w) :
   ((ln.length < 4 + w + 2 ∨ ln.length % 2 = 1) ∧ decodeData ln w = .error .badLength) ∨
   (4 + w + 2 ≤ ln.length ∧ ln.length % 2 = 0 ∧ hexAfterMarker ln = false ∧ decodeData ln w = .error .invalidHexDigit) ∨
   (4 + w + 2 ≤ ln.length ∧ ln.length % 2 = 0 ∧ hexAfterMarker ln = true ∧ ∃ v ds, hexnum ln 4 w = some v ∧ dataField ln w = some ds ∧ decodeData ln w = .decoded (BitVec.ofNat 32 v) ds) := by
  by_cases h : ln.length < 4 + w + 2 ∨ ln.length % 2 = 1
  · left; exact ⟨h, by simp only [decodeData, if_pos h]⟩
  · right
    push Not at h
    have he : ln.length % 2 = 0 := by omega
    cases hh : hexAfterMarker ln with
    | false => left; exact ⟨h.1, he, rfl, by unfold decodeData; rw [if_neg (by omega), hh]; rfl⟩
    | true => right; exact ⟨h.1, he, rfl, decodeData_good hw8 h.1 he hh⟩

/-- The four ways the decoder ends, with their conditions. -/
theorem decodeRecord_cases (ln : Line) :
   (recType ln = none ∧ decodeRecord ln = .error .badMarker) ∨
   (∃ t, recType ln = some t ∧ addrChars t = none ∧ (t = 4#4 ∨ t = 6#4) ∧ decodeRecord ln = .error .unsupportedType) ∨
   (∃ t, recType ln = some t ∧ addrChars t = none ∧ ¬(t = 4#4 ∨ t = 6#4) ∧ decodeRecord ln = .skip) ∨
   (∃ t w, recType ln = some t ∧ addrChars t = some w ∧ decodeRecord ln = decodeData ln w) := by
  cases ht : recType ln with
  | none => left; simp [decodeRecord, ht]
  | some t =>
    right
    cases hw : addrChars t with
    | some w => right; right; exact ⟨t, w, rfl, hw, by simp [decodeRecord, ht, hw]⟩
    | none =>
      by_cases h : t = 4#4 ∨ t = 6#4
      · left; exact ⟨t, rfl, hw, h, by simp [decodeRecord, ht, hw, h]⟩
      · right; left; exact ⟨t, rfl, hw, h, by simp only [decodeRecord, ht, hw, if_neg h]⟩

end Sys2Proof.Machine
end

