-- ==== Sys2Proof/Tests/Slice0.lean ====
section
/-! SUPPORT. The model's own tests. Expected results are those of spec/95_test_vectors.md (the row or program is named) or are
read off the rule named; then, for every obligation with hypotheses, a state and operands that meet them. -/

namespace Sys2Proof.Tests

open Sys2Proof.Machine

/-- The codes of a line's characters (R9). -/
def chars (s : String) : Line := s.toList.map fun c => BitVec.ofNat 8 c.toNat

/-- The response an outcome leaves waiting. -/
def answer? (o : Host.Outcome State Fault Refusal) : Option Response :=
  match o with
  | .next s => s.rsp
  | _ => none

/-- The state after an outcome. -/
def state? (o : Host.Outcome State Fault Refusal) : Option State :=
  match o with
  | .next s => some s
  | _ => none

/-- A block configured and given a raw line. -/
def given (ctrl lo hi : Word) (raw : String) : State :=
  { State.reset with ctrl := ctrl, rmin := lo, rmax := hi, raw := chars raw }

/-- The response to a raw line, first after reset. -/
def respond (ctrl lo hi : Word) (raw : String) : Option Response := answer? (perform .endRecord (given ctrl lo hi raw))

/-- A processed response with record index 0. -/
def judged (ok : Bool) (reasons : BitVec 4) (o : DecodeOutcome) (x : Option Word) : Option Response :=
  some ⟨0#32, .processed ok reasons o x⟩

/-! ### Well-formedness: an ill-formed term for each check -/

theorem test_wf_refuses_trailing_cr : (Instr.s1 [0x30#8, 0x0D#8]).wellFormed = false := by decide
theorem test_wf_refuses_trailing_lf : (Instr.s9 [0x0A#8]).wellFormed = false := by decide
theorem test_wf_refuses_overlong : (Instr.s1 (List.replicate (Config.LMAX - 1) 0x30#8)).fitsLine = false := by
  have := Config.le_lmax
  rw [Instr.fitsLine, Bool.not_eq_false', Config.overlong_iff]
  simp only [Instr.body, List.length_replicate]
  omega
theorem test_wf_accepts : (Instr.s1 (chars "03\r0000FC")).wellFormed = true := by decide

/-! ### Decoding: words written out from R9, R94, R111 -/

theorem test_decode_s0 : decode [0b01010011#8, 0b00110000#8] = .ok (.s0 []) := by decide
theorem test_decode_s1 : decode [0b01010011#8, 0b00110001#8, 0x30#8, 0x0D#8, 0x0A#8] = .ok (.s1 [0x30#8]) := by decide
theorem test_decode_s2 : decode [0b01010011#8, 0b00110010#8] = .ok (.s2 []) := by decide
theorem test_decode_s3 : decode [0b01010011#8, 0b00110011#8] = .ok (.s3 []) := by decide
theorem test_decode_s4 : decode [0b01010011#8, 0b00110100#8] = .ok (.s4 []) := by decide
theorem test_decode_s5 : decode [0b01010011#8, 0b00110101#8] = .ok (.s5 []) := by decide
theorem test_decode_s6 : decode [0b01010011#8, 0b00110110#8] = .ok (.s6 []) := by decide
theorem test_decode_s7 : decode [0b01010011#8, 0b00110111#8] = .ok (.s7 []) := by decide
theorem test_decode_s8 : decode [0b01010011#8, 0b00111000#8] = .ok (.s8 []) := by decide
theorem test_decode_s9 : decode [0b01010011#8, 0b00111001#8] = .ok (.s9 []) := by decide
theorem test_decode_empty : decode [0x0D#8, 0x0A#8] = .error .emptyLine := by decide
theorem test_decode_lone : decode [0x53#8, 0x0A#8] = .error (.loneCharacter 0x53#8) := by decide
theorem test_decode_inner_terminator : decode (chars "S1\r\nX") = .ok (.s1 [0x0D#8, 0x0A#8, 0x58#8]) := by decide

theorem test_table_word_s0 : decodeTableWord 16 0x5330 = some (.s0 []) := by decide
theorem test_table_word_s9 : decodeTableWord 16 0x5339 = some (.s9 []) := by decide
theorem test_table_word_unassigned : decodeTableWord 16 0x533A = none := by decide
theorem test_table_word_runs :
    state? (step (State.reset.withFetchWord 16 0x5331)) = state? (exec (.s1 []) { State.reset with raw := chars "S1" }) := by
  decide

/-- No two rows of the opcode map overlap. -/
theorem test_opcode_rows_are_disjoint :
    opcodeRows.Pairwise fun a b => a.mask = 0xFFFF#16 ∧ b.mask = 0xFFFF#16 ∧ a.pattern ≠ b.pattern := by
  simp [opcodeRows]

/-! ### The records: 95_test_vectors.md sections 1 and 2 -/

theorem test_s1_lower_case : respond 0x01#32 0x38#32 0x38#32 "S108003848656c6c6fcb\n\r\n" =
    judged true 0b0000#4 (.decoded 0x38#32 [0x48#8, 0x65#8, 0x6C#8, 0x6C#8, 0x6F#8]) (some 0x38#32) := by decide
theorem test_s1_odd_stop : respond 0x11#32 0#32 0xFFFF#32 "S1030000F" =
    judged false 0b0010#4 (.error .badLength) none := by decide
theorem test_s2_v1 : respond 0x02#32 0x6000#32 0x3FFFF#32 "S21400B0206C20746861742074726F75626C6520742D" =
    judged true 0b0000#4 (.decoded 0xB020#32 (chars "l that trouble t")) (some 0xB020#32) := by decide
theorem test_s2_v3 : respond 0x02#32 0x6000#32 0x3FFFF#32 "S21300B0206C20746861742074726F75626C6520742D" =
    judged false 0b1010#4 (.decoded 0xB020#32 (chars "l that trouble t")) (some 0xB020#32) := by decide
theorem test_s3_top_address : respond 0x03#32 0#32 0xFFFFFFFF#32 "S306FFFFFFFF00FD" =
    judged true 0b0000#4 (.decoded 0xFFFFFFFF#32 [0x00#8]) (some 0xFFFFFFFF#32) := by decide
theorem test_s3_count_reaches_checksum : respond 0x13#32 0#32 0xFFFFFFFF#32 "S30400000000" =
    judged false 0b0100#4 (.error .badLength) none := by decide
theorem test_s0_reset_configuration : respond 0#32 0xFFFFFFFF#32 0#32 "S00600004844521B" =
    judged true 0b0000#4 .skip none := by decide
theorem test_s0_non_hex : respond 0x01#32 0#32 0xFFFF#32 "S0zz" = judged false 0b1010#4 .skip none := by decide
theorem test_s4 : respond 0x01#32 0#32 0xFFFF#32 "S4030000FC" = judged true 0b0000#4 (.error .unsupportedType) none := by
  decide
theorem test_s5 : respond 0x01#32 0#32 0xFFFF#32 "S5030003F9" = judged true 0b0000#4 .skip none := by decide
theorem test_s6 : respond 0x02#32 0#32 0xFFFF#32 "S604000003F8" =
    judged true 0b0000#4 (.error .unsupportedType) none := by decide
theorem test_s7 : respond 0x03#32 0#32 0#32 "S70508000000F2" = judged true 0b0000#4 .skip none := by decide
theorem test_s8 : respond 0x02#32 0x6000#32 0x3FFFF#32 "S8040060009B" = judged true 0b0000#4 .skip none := by decide
theorem test_s9_bad_checksum : respond 0x11#32 0#32 0xFFFF#32 "S9030000FD" = judged false 0b1000#4 .skip none := by decide
theorem test_not_a_record : respond 0x01#32 0#32 0xFFFF#32 "SA030000FC" =
    judged false 0b0101#4 (.error .badMarker) none := by decide
theorem test_checksum_drops_carries : checksumCheck (chars "S1070000FFFFFFFFFC") = true := by decide
theorem test_checksum_compares_last_pair : checksumCheck (chars "S1043412B600") = false := by decide

/-! ### The other events -/

/-- R252: a write keeps bits 4:0 of `CTRL`. -/
theorem test_cfg_write_masks : (state? (perform (.cfgWrite 0#2 0xFFFFFFFF#32) State.reset)).map State.ctrl = some 0x1F#32 := by
  decide
/-- P4 step 5. -/
theorem test_cfg_read : (state? (perform (.cfgRead 1#2) State.reset)).map State.replies = some [.config 0xFFFFFFFF#32] := by
  decide
/-- R31, R257: the record index wraps. -/
theorem test_take_wraps :
    (state? (perform .takeResponse { State.reset with ridx := 0xFFFFFFFF#32, rsp := some ⟨0xFFFFFFFF#32, .overrun⟩ })).map
      State.ridx = some 0#32 := by decide
/-- P4 step 6: an end of record with nothing pushed. -/
theorem test_empty_record : respond 0#32 0xFFFFFFFF#32 0#32 "" = judged false 0b1111#4 (.error .badMarker) none := by decide
/-- P4 step 5: `Reset` in the middle of a line. -/
theorem test_reset_drops_line : state? (perform .reset (given 0x1F#32 0#32 9#32 "S10800")) = some State.reset := by decide

/-! ### The annex -/

/-- R291: the 24-bit number `F5F4F3` leaves `0x4B49` by the polynomial, that is its first byte's CRC plus the rest. -/
theorem test_crc_remainder : crc16 ⟨0#16, false, false, 0#16⟩ [0xF5#8] ^^^ 0xF4F3#16 = 0x4B49#16 := by decide
/-- R291: and its per-byte reversal `AF2FCF` leaves `0x6BCA`. -/
theorem test_crc_remainder_reflected : crc16 ⟨0#16, true, false, 0#16⟩ [0xF5#8] ^^^ 0x2FCF#16 = 0x6BCA#16 := by decide
/-- V6: the write below the offset fails. -/
theorem test_image_write_below : (FlashImage.constructDefault 0x6000#32 0x1D000#32).write 0x5000#32 [0x0A#8, 0x0B#8, 0x0C#8] =
    none := by decide
/-- P3: a later overlapping write wins, and a load aborted after it keeps both. -/
theorem test_image_load : ((FlashImage.constructDefault 0x08000000#32 0x10#32).loadFile State.reset
    [chars "S309080000001122334444\r\n", chars "S30708000002a55aEF\r\n", chars "S1040800995A\r\n"]) =
      { image := ⟨0x08000000#32, 0x10#32, 0xFF#8, [(0, 0x11#8), (1, 0x22#8), (2, 0xA5#8), (3, 0x5A#8)]⟩
        result := .aborted ⟨.writeBoundsError, 2#32, some 0x0800#32⟩ } := by decide

/-! ### Witnesses: for each obligation with hypotheses, something that meets them -/

/-- A block with a decoded response waiting. -/
def waiting : State :=
  { State.reset with rsp := some ⟨0#32, .processed true 0#4 (.decoded 0x38#32 [1#8, 2#8]) (some 0x38#32)⟩ }

theorem witness_EndRecordHoldsTheResponse : State.reset.rspValid = false := by decide
theorem witness_TakingHandsOverTheResponse : ∃ r, waiting.rsp = some r := ⟨_, rfl⟩
/-- Byte 0, the last byte, one beyond it; and a response without data. -/
theorem witness_ReadDataReturnsTheBuffer :
    (∃ r, waiting.rsp = some r ∧ r.dData = some [1#8, 2#8] ∧ [1#8, 2#8][0]? = some 1#8 ∧ [1#8, 2#8][1]? = some 2#8 ∧
      [1#8, 2#8][2]? = none) ∧
    (Response.dKind ⟨0#32, .processed true 0#4 .skip none⟩ ≠ some .decoded) := by
  refine ⟨⟨_, rfl, ?_⟩, ?_⟩ <;> decide
theorem witness_ChannelsHoldAndAreLifted : waiting.rspValid = true ∧ State.reset.rspValid = false ∧
    (∃ t, perform .takeResponse waiting = .next t) ∧ (∃ t, perform .reset waiting = .next t) ∧
    (∃ t, perform .endRecord State.reset = .next t) := ⟨rfl, rfl, ⟨_, rfl⟩, ⟨_, rfl⟩, ⟨_, rfl⟩⟩
theorem witness_StepPerformsTheNextEnabledEvent :
    ∃ s : State, s.events = [.pushChar 0x53#8] ∧ enabled (.pushChar 0x53#8) s = true :=
  ⟨{ State.reset with events := [.pushChar 0x53#8] }, rfl, rfl⟩
theorem witness_BlockNeverActsOnItsOwn : State.reset.events = [] ∧
    ∃ s : State, s.events = [.endRecord] ∧ enabled .endRecord s = false :=
  ⟨rfl, { waiting with events := [.endRecord] }, rfl, rfl⟩
theorem witness_StepRunsTheDecodedRecord :
    ∃ s : State, s.events = [.endRecord] ∧ s.rspValid = false ∧ decode s.raw = .ok (.s9 (chars "030000FC")) :=
  ⟨{ State.reset with events := [.endRecord], raw := chars "S9030000FC\r\n" }, rfl, rfl, by decide⟩
/-- The shortest line of a record, and the longest known to fit. -/
theorem witness_DataRecordsAnswerTheirChecks : ([] : Line).length + 2 ≤ Config.LMAX ∧
    (List.replicate 512 0x30#8).length + 2 ≤ Config.LMAX := by
  have := Config.le_lmax
  simp only [List.length_nil, List.length_replicate]
  omega
theorem witness_NonDataRecordsAnswerTheirChecks : ([] : Line).length + 2 ≤ Config.LMAX ∧
    (List.replicate 512 0x30#8).length + 2 ≤ Config.LMAX := witness_DataRecordsAnswerTheirChecks
/-- One character too many: an instruction and a raw line. -/
theorem witness_OverlongLineIsRefusedWhole :
    Config.LMAX < (Instr.s1 (List.replicate (Config.LMAX - 1) 0x30#8)).body.length + 2 ∧
    ∃ s : State, Config.LMAX < (strip s.raw).length := by
  have := Config.le_lmax
  refine ⟨by simp only [Instr.body, List.length_replicate]; omega,
    { State.reset with raw := List.replicate (Config.LMAX + 1) 0x30#8 }, ?_⟩
  rw [strip_eq_self (c := 0x30#8) (by simp [List.getLast?_replicate]) (by decide), List.length_replicate]
  omega
/-- A lone character, the codes before `0` and after `9`, another letter; no character, and a terminator. -/
theorem witness_LineThatIsNoRecord :
    (strip (chars "S")).length = 1 ∧ (strip (chars "S")).length ≤ Config.LMAX ∧
    (∃ c d rest, strip (chars "S/") = c :: d :: rest ∧ ¬(c = 0x53#8 ∧ 0x30 ≤ d.toNat ∧ d.toNat ≤ 0x39)) ∧
    (∃ c d rest, strip (chars "S:") = c :: d :: rest ∧ ¬(c = 0x53#8 ∧ 0x30 ≤ d.toNat ∧ d.toNat ≤ 0x39)) ∧
    (∃ c d rest, strip (chars "s0") = c :: d :: rest ∧ ¬(c = 0x53#8 ∧ 0x30 ≤ d.toNat ∧ d.toNat ≤ 0x39)) ∧
    (∀ c ∈ ([] : Line), c = 0x0D#8 ∨ c = 0x0A#8) ∧ (∀ c ∈ [0x0A#8], c = 0x0D#8 ∨ c = 0x0A#8) := by
  refine ⟨by decide, le_trans (by decide : _ ≤ 514) Config.le_lmax, ⟨0x53#8, 0x2F#8, [], by decide, by decide⟩,
    ⟨0x53#8, 0x3A#8, [], by decide, by decide⟩, ⟨0x73#8, 0x30#8, [], by decide, by decide⟩, ?_, ?_⟩ <;> simp
theorem witness_RecordsChangeOnlyTheResponse : ∃ t, exec (.s1 []) State.reset = .next t := ⟨_, rfl⟩
theorem witness_NonDataVerdictIgnoresTheConfiguration :
    (given 0x11#32 0#32 9#32 "").ridx = State.reset.ridx ∧ (∀ b, Instr.s9 [] ≠ .s1 b) ∧ (∀ b, Instr.s9 [] ≠ .s2 b) ∧
    (∀ b, Instr.s9 [] ≠ .s3 b) ∧ (∃ t, exec (.s9 []) (given 0x11#32 0#32 9#32 "") = .next t) ∧
    (∃ t, exec (.s9 []) State.reset = .next t) := by
  refine ⟨rfl, ?_, ?_, ?_, ⟨_, rfl⟩, ⟨_, rfl⟩⟩ <;> simp
/-- The first and the last type digit, and a data type that is expected and that is not. -/
theorem witness_FormatCheckPassesExactly : formatCheck (chars "S0") 1#4 = true ∧ formatCheck (chars "S9") 1#4 = true ∧
    formatCheck (chars "S3") 3#4 = true ∧ formatCheck (chars "S3") 2#4 = false := by decide
/-- Both bounds of a window, each type's own width, and one address too low and too high. -/
theorem witness_AddressCheckPassesExactly :
    addressCheck (chars "S205006000AAF0") 0x6000#32 0x3FFFF#32 = true ∧
    addressCheck (chars "S20503FFFFAA4F") 0x6000#32 0x3FFFF#32 = true ∧
    addressCheck (chars "S205005FFFAAF2") 0x6000#32 0x3FFFF#32 = false ∧
    addressCheck (chars "S205040000AA4C") 0x6000#32 0x3FFFF#32 = false ∧
    addressCheck (chars "S104FFFFFFFE") 0xFFFF#32 0xFFFF#32 = true ∧
    addressCheck (chars "S306FFFFFFFF00FD") 0xFFFFFFFF#32 0xFFFFFFFF#32 = true := by decide
theorem witness_ExtractedAddressIsTheField : extractAddr (chars "S1030000FC") = some 0#32 ∧
    extractAddr (chars "S205FFFFFFAA53") = some 0xFFFFFF#32 ∧ extractAddr (chars "S306FFFFFFFF00FD") = some 0xFFFFFFFF#32 ∧
    extractAddr (chars "S10200FD") = none := by decide
/-- A data and a non-data record that pass. -/
theorem witness_OkMeansWellFormedInTheWindow :
    (validate (chars "S1030000FC") 1#4 0#32 0#32 false).vOk = true ∧
    (validate (chars "S9030000FC") 1#4 5#32 4#32 true).vOk = true := by decide
theorem witness_ValidatorPassesExactly : (validate (chars "S9030000FC") 1#4 5#32 4#32 true).vOk = true ∧
    (validate (chars "S9030000FD") 1#4 5#32 4#32 true).vOk = false := by decide
theorem witness_LengthCheckPassesExactly : 514 < (List.replicate 515 0x30#8).length := by
  rw [List.length_replicate]; decide
/-- A line that passes; its second pair changed; its pairs in another order. -/
theorem witness_ChecksumSeesOneChangedPairButNoOrder :
    let ln := chars "S1031234B6"
    let bs := [0x03#8, 0x12#8, 0x34#8, 0xB6#8]
    6 ≤ ln.length ∧ hexPairs (ln.drop 2) = some bs ∧ checksumCheck ln = true ∧
      hexPairs ((chars "S103FF34B6").drop 2) = some (bs.set 1 0xFF#8) ∧ 1 < bs.length ∧ bs[1]? ≠ some 0xFF#8 ∧
      hexPairs ((chars "S1033412B6").drop 2) = some [0x03#8, 0x34#8, 0x12#8, 0xB6#8] ∧
      bs.Perm [0x03#8, 0x34#8, 0x12#8, 0xB6#8] := by decide
theorem witness_AddressWidthDoesNotChangeTheAddress :
    (chars "B020").length = 4 ∧ hexDigits 0 (chars "B020") = some 0xB020 ∧ (chars "03").length = 2 ∧
    2 ≤ (chars "2C").length := by decide
theorem witness_DecodedDataIsEveryRemainingPair :
    decodeRecord (chars "S10500380102xx") = .error .invalidHexDigit ∧
    decodeRecord (chars "S105003801020F") = .decoded 0x38#32 [1#8, 2#8] := by decide
/-- A line for each error reason. -/
theorem witness_DecoderErrorsInTheirOrder :
    recType (chars "s1") = none ∧ recType (chars "S4") = some 4#4 ∧ recType (chars "S6") = some 6#4 ∧
    recType (chars "S1030000F") = some 1#4 ∧ (chars "S1030000F").length % 2 = 1 ∧
    recType (chars "S103000xFC") = some 1#4 ∧ 4 + 4 + 2 ≤ (chars "S103000xFC").length ∧
    (chars "S103000xFC")[7]? = some 0x78#8 ∧ hexval 0x78#8 = none := by decide
/-- A decoded line; and one that passes, in a window of one address. -/
theorem witness_ValidatedDataRecordsDecode :
    let ln := chars "S108003848656C6C6FCB"
    decodeRecord ln = .decoded 0x38#32 (chars "Hello") ∧ recType ln = some 1#4 ∧ addrChars 1#4 = some 4 ∧
      (validate ln 1#4 0x38#32 0x38#32 true).vOk = true := by decide
theorem witness_DataFitsTheBuffer :
    let ln := chars "S108003848656C6C6FCB"
    decodeRecord ln = .decoded 0x38#32 (chars "Hello") ∧ ln.length ≤ 514 ∧ 514 ≤ Config.LMAX ∧ lengthCheck ln = true :=
  ⟨by decide, by decide, Config.le_lmax, by decide⟩
theorem witness_EncodedRecordsDecodeBack : (Instr.s1 (chars "030000FC")).wellFormed = true ∧
    (∀ c ∈ [0x0D#8, 0x0A#8], c = 0x0D#8 ∨ c = 0x0A#8) := by decide
theorem witness_DecodingLosesNoCharacter : decode (chars "S9\n") = .ok (.s9 []) ∧
    decode (chars "s9") = .error (.badLetter 0x73#8) := by decide
/-- The least and the greatest address and data of each type, in windows of just the address. -/
theorem witness_ComposedDataRecordsAreAccepted :
    expType (given 1#32 0xFFFF#32 0xFFFF#32 "").ctrl = 1#4 ∧ (0xFFFF#32).toNat < 16 ^ 4 ∧
    (List.replicate 252 0#8).length + 4 / 2 + 1 ≤ 255 ∧
    expType (given 2#32 0xFFFFFF#32 0xFFFFFF#32 "").ctrl = 2#4 ∧ (0xFFFFFF#32).toNat < 16 ^ 6 ∧
    (List.replicate 251 0#8).length + 6 / 2 + 1 ≤ 255 ∧
    expType (given 3#32 0xFFFFFFFF#32 0xFFFFFFFF#32 "").ctrl = 3#4 ∧ (0xFFFFFFFF#32).toNat < 16 ^ 8 ∧
    ([] : List Byte).length + 8 / 2 + 1 ≤ 255 := by
  simp only [List.length_replicate]
  decide
/-- A state with a response, about to take it, has the invariant and steps. -/
theorem witness_EveryStepKeepsTheInvariant : ∃ s : State, s.Inv ∧ s.rspValid = true ∧ ∃ t, step s = .next t := by
  refine ⟨{ State.reset with rsp := some ⟨0#32, .processed true 0#4 .skip none⟩, events := [.takeResponse] },
    ⟨fun _ => rfl, ?_, ?_, by decide⟩, rfl, ⟨_, rfl⟩⟩ <;>
  · intro r h; injection h with h; subst h; rfl
theorem witness_OnlyTheHostChangesTheConfiguration : ∃ s : State, (∃ t, step s = .next t) ∧ s.events.head? ≠ some .reset ∧
    ∀ n v, s.events.head? ≠ some (.cfgWrite n v) :=
  ⟨{ State.reset with events := [.pushChar 0x53#8] }, ⟨_, rfl⟩, by decide, by simp⟩
/-- A response taken, one to be taken that is not there, a reset. -/
theorem witness_OnlyTakingAResponseAdvancesTheIndex :
    (∃ t, step { waiting with events := [.takeResponse] } = .next t) ∧
    (∃ t, step { State.reset with events := [.takeResponse] } = .next t) ∧
    (∃ t, step { waiting with events := [.reset] } = .next t) := ⟨⟨_, rfl⟩, ⟨_, rfl⟩, ⟨_, rfl⟩⟩
theorem witness_WaitingResponseStaysUntilTaken : ∃ (s t : State) (r : Response), s.rsp = some r ∧ step s = .next t ∧
    s.events.head? ≠ some .takeResponse ∧ s.events.head? ≠ some .reset :=
  ⟨{ waiting with events := [.cfgWrite 0#2 1#32] }, _, _, rfl, rfl, by decide, by decide⟩
theorem witness_ResponseDependsOnLineAndConfigurationOnly :
    strip (given 1#32 0#32 9#32 "S9\r\n").raw = strip (given 1#32 0#32 9#32 "S9").raw ∧
    (∃ t, perform .endRecord (given 1#32 0#32 9#32 "S9\r\n") = .next t) ∧
    (∃ t, perform .endRecord (given 1#32 0#32 9#32 "S9") = .next t) := ⟨by decide, ⟨_, rfl⟩, ⟨_, rfl⟩⟩
theorem witness_ResetConfigurationIsFailClosed :
    recType (chars "S1") = some 1#4 ∧ isData 1#4 = true ∧ recType (chars "S9") = some 9#4 ∧ isData 9#4 = false := by decide
theorem witness_PresentedFileIsAnsweredLineByLine : ∃ s : State, s.raw = [] ∧ s.rsp = none ∧
    s.events = presentLines [chars "S1", chars ""] ++ [.reset] :=
  ⟨{ State.reset with events := presentLines [chars "S1", chars ""] ++ [.reset] }, rfl, rfl, rfl⟩
theorem witness_ValidateEventsGiveTheVerdict : (strip (chars "S1\n")).length ≤ Config.LMAX ∧ ∃ s : State, s.raw = [] ∧
    s.rsp = none ∧ s.events = validateEvents (chars "S1\n") 1#4 0#32 9#32 true :=
  ⟨le_trans (by decide : _ ≤ 514) Config.le_lmax,
    { State.reset with events := validateEvents (chars "S1\n") 1#4 0#32 9#32 true }, rfl, rfl, rfl⟩
/-- A reset against everything else, and the last character of a line against a configuration write. -/
theorem witness_ClockCycleOrdersItsEvents :
    (PortInputs.mk true true true 0#2 1#32 true 0x53#8 true false true).rst = true ∧
    (let p := PortInputs.mk false true true 0#2 1#32 true 0x53#8 true false true;
      p.rst = false ∧ p.recValid = true ∧ p.recLast = true ∧ p.recEmpty = false ∧ State.reset.rsp = none) := by decide
/-- The first byte below the image, one beyond its end, and both ends within it. -/
theorem witness_ImageWriteIsBoundsChecked :
    let img := FlashImage.constructDefault 0x6000#32 4#32
    img.wf = true ∧ img.offset.toNat + img.size.toNat ≤ 2 ^ 32 ∧ img.index 0x5FFF#32 < 0 ∧
      (img.size.toNat : Int) < img.index 0x6002#32 + [1#8, 2#8, 3#8].length ∧ 0 ≤ img.index 0x6000#32 ∧
      img.index 0x6001#32 + [1#8, 2#8, 3#8].length ≤ (img.size.toNat : Int) := by decide
theorem witness_LoadingKeepsTheImageWellFormed : (FlashImage.constructDefault 0x6000#32 4#32).wf = true := by decide
theorem witness_EraseForgetsTheLoadHistory : (⟨0#32, 4#32, 0xFF#8, [(1, 2#8)]⟩ : FlashImage).size = 4#32 ∧
    (FlashImage.constructDefault 0x6000#32 4#32).size = 4#32 ∧
    (⟨0#32, 4#32, 0xFF#8, [(1, 2#8)]⟩ : FlashImage).fillByte = (FlashImage.constructDefault 0x6000#32 4#32).fillByte := by
  decide
theorem witness_ContentChangesTheChecksum : 3 ≤ (3#32).toNat ∧ (0xFFFFFFFD#32).toNat + (3#32).toNat ≤ 2 ^ 32 := by decide
/-- Two neighbouring writes that fill an image. -/
theorem witness_DisjointWritesCommute :
    let img := FlashImage.constructDefault 0x6000#32 4#32
    img.wf = true ∧ img.offset.toNat + img.size.toNat ≤ 2 ^ 32 ∧
      (0x6000#32).toNat + [1#8, 2#8].length ≤ (0x6002#32).toNat ∧
      ∃ a n ab m b m' ba n', img.write 0x6000#32 [1#8, 2#8] = some (a, n) ∧ a.write 0x6002#32 [3#8, 4#8] = some (ab, m) ∧
        img.write 0x6002#32 [3#8, 4#8] = some (b, m') ∧ b.write 0x6000#32 [1#8, 2#8] = some (ba, n') := by
  refine ⟨by decide, by decide, by decide, _, _, _, _, _, _, _, _, rfl, rfl, rfl, rfl⟩
/-- A load that went well so far, then an overrun; then a write outside the image. -/
theorem witness_AbortedLoadKeepsEarlierWrites :
    let img := FlashImage.constructDefault 0x6000#32 4#32
    (∃ n, (img.applyResponses 0 [⟨0#32, .processed true 0#4 .skip none⟩]).result = .completed n) ∧
    Response.loadable ⟨1#32, .overrun⟩ = false ∧ img.write 0x5FFF#32 [1#8] = none := by
  refine ⟨⟨_, rfl⟩, by decide, by decide⟩
theorem witness_LoadFileIsTheRunOfTheBlock : ∃ s : State, s.raw = [] ∧ s.rsp = none ∧ s.replies = [] ∧
    s.events = presentLines [chars "S9030000FC"] :=
  ⟨{ State.reset with events := presentLines [chars "S9030000FC"] }, rfl, rfl, rfl, rfl⟩

end Sys2Proof.Tests
end

/-! The case of hex digits (R11, R103). After the marker every unit reads a character through `hexval` alone, and `hexval`
does not see case; so each reader of a line, and each check and decoder built on it, answers the same for the line with its
digits in upper case. -/

namespace Sys2Proof.Machine

/-- A character with the letters `a` to `f` brought to upper case. -/
def upperDigit (c : Byte) : Byte := if 0x61#8 ≤ c ∧ c ≤ 0x66#8 then c - 0x20#8 else c

/-- A line with the letters `a` to `f` after its marker brought to upper case. -/
def upperAfterMarker (ln : Line) : Line := ln.take 2 ++ (ln.drop 2).map upperDigit

section digits

/-- A lower-case hex digit has the value of its upper-case form (R11). -/
@[simp] theorem hexval_upperDigit (c : Byte) : hexval (upperDigit c) = hexval c := by
  unfold upperDigit
  split
  · rename_i hc
    obtain ⟨hlo, hhi⟩ := hc
    have hnum : ¬ c ≤ 0x39#8 := by bv_omega
    have hup : ¬ c ≤ 0x46#8 := by bv_omega
    have hnum' : ¬ c - 0x20#8 ≤ 0x39#8 := by bv_omega
    have hlo' : 0x41#8 ≤ c - 0x20#8 := by bv_omega
    have hhi' : c - 0x20#8 ≤ 0x46#8 := by bv_omega
    have hval : (c - 0x20#8).toNat - 0x41 = c.toNat - 0x61 := by bv_omega
    simp only [hexval, hnum, hup, hnum', hlo', hhi', hlo, hhi, hval, and_false, and_self, if_true, if_false]
  · rfl

@[simp] theorem ishex_upperDigit (c : Byte) : ishex (upperDigit c) = ishex c := by
  simp [ishex]

@[simp] theorem hexPair_upperDigit (hi lo : Byte) : hexPair (upperDigit hi) (upperDigit lo) = hexPair hi lo := by
  simp [hexPair]

@[simp] theorem hexDigits_map_upperDigit (acc : Nat) (cs : Line) :
    hexDigits acc (cs.map upperDigit) = hexDigits acc cs := by
  induction cs generalizing acc with
  | nil => rfl
  | cons c cs ih => simp [hexDigits, ih]

@[simp] theorem hexPairs_map_upperDigit (cs : Line) : hexPairs (cs.map upperDigit) = hexPairs cs := by
  induction cs using List.twoStepInduction with
  | nil => rfl
  | singleton c => rfl
  | cons_cons hi lo cs ih _ => simp [hexPairs, ih]

end digits

section line

variable (ln : Line)

@[simp] theorem upperAfterMarker_length : (upperAfterMarker ln).length = ln.length := by
  simp [upperAfterMarker]; omega

theorem drop_upperAfterMarker {n : Nat} (h : 2 ≤ n) :
    (upperAfterMarker ln).drop n = (ln.drop n).map upperDigit := by
  match ln, n, h with
  | [], _, _ => simp [upperAfterMarker]
  | [_], n + 2, _ => simp [upperAfterMarker]
  | _ :: _ :: _, n + 2, _ => simp [upperAfterMarker]

theorem getElem?_upperAfterMarker {i : Nat} (h : 2 ≤ i) : (upperAfterMarker ln)[i]? = ln[i]?.map upperDigit := by
  simpa using congrArg List.head? (drop_upperAfterMarker ln h)

/-- The marker is left as it is, and the type with it. -/
@[simp] theorem recType_upperAfterMarker : recType (upperAfterMarker ln) = recType ln := by
  match ln with
  | [] => rfl
  | [_] => rfl
  | c :: d :: rest => exact (recType_cons c d _).trans (recType_cons c d rest).symm

theorem pair_upperAfterMarker {i : Nat} (h : 2 ≤ i) : pair (upperAfterMarker ln) i = pair ln i := by
  have h' : 2 ≤ i + 1 := by omega
  unfold pair
  rw [getElem?_upperAfterMarker ln h, getElem?_upperAfterMarker ln h']
  cases ln[i]? <;> cases ln[i + 1]? <;> simp

theorem hexnum_upperAfterMarker {a : Nat} (n : Nat) (h : 2 ≤ a) :
    hexnum (upperAfterMarker ln) a n = hexnum ln a n := by
  simp only [hexnum, upperAfterMarker_length, drop_upperAfterMarker ln h, ← List.map_take, hexDigits_map_upperDigit]

@[simp] theorem byteCount_upperAfterMarker : byteCount (upperAfterMarker ln) = byteCount ln :=
  pair_upperAfterMarker ln (le_refl 2)

@[simp] theorem hexAfterMarker_upperAfterMarker : hexAfterMarker (upperAfterMarker ln) = hexAfterMarker ln := by
  have hcomp : ishex ∘ upperDigit = ishex := funext ishex_upperDigit
  rw [hexAfterMarker, drop_upperAfterMarker ln (le_refl 2), List.all_map, hcomp, hexAfterMarker]

@[simp] theorem dataField_upperAfterMarker (w : Nat) : dataField (upperAfterMarker ln) w = dataField ln w := by
  have h : 2 ≤ 4 + w := by omega
  simp only [dataField, upperAfterMarker_length, drop_upperAfterMarker ln h, ← List.map_take, hexPairs_map_upperDigit]

@[simp] theorem extractAddr_upperAfterMarker : extractAddr (upperAfterMarker ln) = extractAddr ln := by
  simp [extractAddr, hexnum_upperAfterMarker]

end line

section units

variable (ln : Line)

@[simp] theorem checksumCheck_upperAfterMarker : checksumCheck (upperAfterMarker ln) = checksumCheck ln := by
  simp only [checksumCheck, upperAfterMarker_length, hexAfterMarker_upperAfterMarker,
    drop_upperAfterMarker ln (le_refl 2), hexPairs_map_upperDigit]

@[simp] theorem checkAll_upperAfterMarker (exptype : BitVec 4) (rmin rmax : Word) :
    checkAll (upperAfterMarker ln) exptype rmin rmax = checkAll ln exptype rmin rmax := by
  simp [checkAll, formatCheck, lengthCheck, addressCheck]

@[simp] theorem decodeRecord_upperAfterMarker : decodeRecord (upperAfterMarker ln) = decodeRecord ln := by
  simp [decodeRecord, decodeData, hexnum_upperAfterMarker]

/-- Both units, and the overrun test before them, answer a line whatever the case of its hex digits. -/
theorem lineResponse_upperAfterMarker (s : State) : lineResponse (upperAfterMarker ln) s = lineResponse ln s := by
  simp [lineResponse, processedResponse, validate]

end units

/-- Settles O37: the line of the statement is `upperAfterMarker ln`, which every reader of the block takes as `ln`. -/
theorem caseOfHexDigitsDoesNotMatter : Obligations.CaseOfHexDigitsDoesNotMatter :=
  lineResponse_upperAfterMarker

end Sys2Proof.Machine

/-! The state's invariants and what a step leaves alone (R23, R29, R31, R38). First what taking a response and a
configuration write do to each field, then what the decoder can answer against the reported address, then one lemma per
property over the events; each statement about `step` follows from `step_next_cases`. -/

namespace Sys2Proof.Machine

section taking

variable (s : State)

@[simp] theorem onTakeResponse_ctrl : (onTakeResponse s).ctrl = s.ctrl := by unfold onTakeResponse; split <;> rfl
@[simp] theorem onTakeResponse_rmin : (onTakeResponse s).rmin = s.rmin := by unfold onTakeResponse; split <;> rfl
@[simp] theorem onTakeResponse_rmax : (onTakeResponse s).rmax = s.rmax := by unfold onTakeResponse; split <;> rfl
@[simp] theorem onTakeResponse_raw : (onTakeResponse s).raw = s.raw := by unfold onTakeResponse; split <;> rfl

@[simp] theorem onTakeResponse_rsp : (onTakeResponse s).rsp = none := by
  unfold onTakeResponse
  split
  · assumption
  · rfl

@[simp] theorem onTakeResponse_ridx :
    (onTakeResponse s).ridx = if s.rspValid = true then s.ridx + 1#32 else s.ridx := by
  unfold onTakeResponse State.rspValid
  cases s.rsp <;> rfl

end taking

section responses

/-- The data field holds every character between the address and the checksum, two to a byte (R98). -/
theorem dataField_length {ln : Line} {w : Nat} {ds : List Byte} (h : dataField ln w = some ds) :
    2 * ds.length = ln.length - 4 - w - 2 := by
  have hlen := hexPairs_length h
  rw [List.length_take, List.length_drop] at hlen
  omega

/-- A line that decodes is a data record; its address is the one reported, and the rest of it is its data (R178 a). -/
theorem decodeRecord_decoded {ln : Line} {a : Word} {ds : List Byte} (h : decodeRecord ln = .decoded a ds) :
    extractAddr ln = some a ∧ ∃ t w, recType ln = some t ∧ addrChars t = some w ∧ dataField ln w = some ds := by
  rcases decodeRecord_cases ln with ⟨-, hd⟩ | ⟨_, -, -, -, hd⟩ | ⟨_, -, -, -, hd⟩ | ⟨t, w, ht, hw, hd⟩
  · simp [hd] at h
  · simp [hd] at h
  · simp [hd] at h
  · rw [hd] at h
    rcases decodeData_cases ln (addrChars_le hw) with ⟨-, hd'⟩ | ⟨-, -, -, hd'⟩ | ⟨hl, -, -, v, ds', hv, hds, hd'⟩
    · simp [hd'] at h
    · simp [hd'] at h
    · rw [hd', DecodeOutcome.decoded.injEq] at h
      obtain ⟨rfl, rfl⟩ := h
      exact ⟨by simp [extractAddr, ht, hw, hv, Nat.not_lt.2 hl], t, w, ht, hw, hds⟩

/-- A data record decodes or is an error (R173). -/
theorem decodeData_ne_skip (ln : Line) {w : Nat} (hw : w ≤ 8 ∧ w % 2 = 0 ∧ 4 ≤ w) : decodeData ln w ≠ .skip := by
  rcases decodeData_cases ln hw with ⟨-, hd⟩ | ⟨-, -, -, hd⟩ | ⟨-, -, -, _, _, -, -, hd⟩ <;> simp [hd]

/-- A line that is skipped has a type without an address, so none is reported (R220). -/
theorem extractAddr_of_skip {ln : Line} (h : decodeRecord ln = .skip) : extractAddr ln = none := by
  rcases decodeRecord_cases ln with ⟨-, hd⟩ | ⟨_, -, -, -, hd⟩ | ⟨t, ht, hw, -, -⟩ | ⟨_, w, -, hw, hd⟩
  · simp [hd] at h
  · simp [hd] at h
  · simp [extractAddr, ht, hw]
  · exact absurd (hd.symm.trans h) (decodeData_ne_skip ln (addrChars_le hw))

/-- The data of a line that fits `LMAX` fit the buffer: the narrowest address leaves `LMAX - 10` characters (R179). -/
theorem decoded_length_le_dmax {ln : Line} {a : Word} {ds : List Byte} (hfit : ln.length ≤ Config.LMAX)
    (h : decodeRecord ln = .decoded a ds) : ds.length ≤ Config.DMAX := by
  obtain ⟨-, t, w, -, hw, hds⟩ := decodeRecord_decoded h
  have hlen := dataField_length hds
  obtain ⟨-, -, hw4⟩ := addrChars_le hw
  unfold Config.DMAX
  omega

theorem processedResponse_sound {ln : Line} (ctrl rmin rmax ridx : Word) (hfit : ln.length ≤ Config.LMAX) :
    (processedResponse ln ctrl rmin rmax ridx).sound = true := by
  simp only [processedResponse, Response.sound, validate, verdictOf, beq_self_eq_true, Bool.true_and]
  split
  next a ds h => simp [decoded_length_le_dmax hfit h, (decodeRecord_decoded h).1]
  next h => simp [extractAddr_of_skip h]
  next => rfl

/-- Every response the block makes is sound (R38 c). -/
theorem lineResponse_sound (ln : Line) (s : State) : (lineResponse ln s).sound = true := by
  rcases Nat.lt_or_ge Config.LMAX ln.length with hlong | hfit
  · rw [lineResponse_of_overlong s hlong]
    rfl
  · rw [lineResponse_of_fits s hfit]
    exact processedResponse_sound _ _ _ _ hfit

end responses

section invariant

variable {s t : State}

/-- Where no response waits, only the reserved bits of `CTRL` are left to ask for. -/
theorem State.inv_of_no_response (hrsp : s.rsp = none) (hctrl : s.ctrl &&& ~~~ctrlMask = 0#32) : s.Inv where
  raw_empty h := by simp [State.rspValid, hrsp] at h
  same_index := by simp [hrsp]
  response_sound := by simp [hrsp]
  ctrl_reserved := hctrl

/-- A change that spares `RAW`, the response and its index keeps the invariants if it keeps the reserved bits of `CTRL`. -/
theorem State.Inv.of_same_response (h : s.Inv) (hraw : t.raw = s.raw) (hrsp : t.rsp = s.rsp) (hridx : t.ridx = s.ridx)
    (hctrl : t.ctrl &&& ~~~ctrlMask = 0#32) : t.Inv where
  raw_empty := by simpa [State.rspValid, hraw, hrsp] using h.raw_empty
  same_index := by simpa [hrsp, hridx] using h.same_index
  response_sound := by simpa [hrsp] using h.response_sound
  ctrl_reserved := hctrl

/-- A configuration write leaves the reserved bits of `CTRL` at 0 (R24, R252). -/
theorem State.cfgWrite_ctrl_reserved (n : BitVec 2) (v : Word) (hctrl : s.ctrl &&& ~~~ctrlMask = 0#32) :
    (s.cfgWrite n v).ctrl &&& ~~~ctrlMask = 0#32 := by
  unfold State.cfgWrite
  split
  · simp [BitVec.and_assoc]
  all_goals exact hctrl

/-- An end of record brings the response's three invariants about by itself. -/
theorem State.inv_respond (ln : Line) (hctrl : s.ctrl &&& ~~~ctrlMask = 0#32) : (s.respond ln).Inv where
  raw_empty _ := rfl
  same_index := by simp
  response_sound := by simp [lineResponse_sound]
  ctrl_reserved := hctrl

/-- Every enabled event keeps the invariants (R38). -/
theorem after_keeps_inv {e : Event} (h : s.Inv) (he : enabled e s = true) : (after e s).Inv := by
  have hctrl := h.ctrl_reserved
  cases e with
  | reset => exact State.inv_of_no_response rfl (by simp [after])
  | cfgWrite n v =>
    exact h.of_same_response (s.cfgWrite_raw n v) (s.cfgWrite_rsp n v) (s.cfgWrite_ridx n v)
      (State.cfgWrite_ctrl_reserved n v hctrl)
  | cfgRead n => exact h.of_same_response rfl rfl rfl hctrl
  | pushChar c =>
    have hnone : s.rsp = none := s.rspValid_eq_false_iff.1 (by simpa [enabled] using he)
    exact State.inv_of_no_response hnone hctrl
  | endRecord => exact State.inv_respond _ hctrl
  | readData k => exact h.of_same_response rfl rfl rfl hctrl
  | takeResponse => exact State.inv_of_no_response (onTakeResponse_rsp s) (by simpa [after] using hctrl)

end invariant

section frames

/-- No event but a configuration write or a reset changes a configuration register (R23). -/
theorem after_config {e : Event} (s : State) (hreset : e ≠ .reset) (hwrite : ∀ n v, e ≠ .cfgWrite n v) :
    (after e s).ctrl = s.ctrl ∧ (after e s).rmin = s.rmin ∧ (after e s).rmax = s.rmax := by
  cases e with
  | reset => exact absurd rfl hreset
  | cfgWrite n v => exact absurd rfl (hwrite n v)
  | takeResponse => simp [after]
  | cfgRead _ | pushChar _ | endRecord | readData _ => exact ⟨rfl, rfl, rfl⟩

/-- What each event makes of the record index (R31). -/
theorem after_ridx (e : Event) (s : State) : (after e s).ridx =
    if e = .reset then 0#32 else if e = .takeResponse ∧ s.rspValid = true then s.ridx + 1#32 else s.ridx := by
  cases e <;> simp [after]

/-- While a response waits, no enabled event but its taking and a reset touches it, or the line buffer (R29, R259). -/
theorem after_response {e : Event} {s : State} {r : Response} (hr : s.rsp = some r) (he : enabled e s = true)
    (htake : e ≠ .takeResponse) (hreset : e ≠ .reset) : (after e s).rsp = some r ∧ (after e s).raw = s.raw := by
  cases e with
  | reset => exact absurd rfl hreset
  | takeResponse => exact absurd rfl htake
  | pushChar _ | endRecord => simp [enabled, State.rspValid, hr] at he
  | cfgWrite n v => simp [after, hr]
  | cfgRead _ | readData _ => exact ⟨hr, rfl⟩

end frames

/-- Settles O44: an event that happens keeps the invariants, and they do not see the script. -/
theorem everyStepKeepsTheInvariant : Obligations.EveryStepKeepsTheInvariant := by
  intro s t h hs
  rcases step_next_cases hs with ⟨rfl, -⟩ | ⟨e, rest, -, he, rfl⟩
  · exact h
  · have h' : ({ s with events := rest } : State).Inv := h.of_same_response rfl rfl rfl h.ctrl_reserved
    exact after_keeps_inv h' (by rwa [enabled_events])

/-- Settles O45: nothing happens, or an event that is neither of the two does. -/
theorem onlyTheHostChangesTheConfiguration : Obligations.OnlyTheHostChangesTheConfiguration := by
  intro s t hs hreset hwrite
  rcases step_next_cases hs with ⟨rfl, -⟩ | ⟨e, rest, hev, -, rfl⟩
  · exact ⟨rfl, rfl, rfl⟩
  · simp only [hev, List.head?_cons, ne_eq, Option.some.injEq] at hreset hwrite
    exact after_config _ hreset hwrite

/-- Settles O46: where nothing happens, the next event is no reset, which is always enabled, and no response waits for a
taking that is next. -/
theorem onlyTakingAResponseAdvancesTheIndex : Obligations.OnlyTakingAResponseAdvancesTheIndex := by
  intro s t hs
  rcases step_next_cases hs with ⟨rfl, hheld⟩ | ⟨e, rest, hev, -, rfl⟩
  · have hreset : t.events.head? ≠ some .reset := fun h => by simpa [enabled] using hheld _ h
    have htake : ¬ (t.events.head? = some .takeResponse ∧ t.rspValid = true) :=
      fun ⟨h, hvalid⟩ => by simpa [enabled, hvalid] using hheld _ h
    rw [if_neg hreset, if_neg htake]
  · simp only [hev, List.head?_cons, Option.some.injEq]
    exact after_ridx e _

/-- Settles O47: nothing happens, or an event does that spares the waiting response. -/
theorem waitingResponseStaysUntilTaken : Obligations.WaitingResponseStaysUntilTaken := by
  intro s t r hr hs htake hreset
  rcases step_next_cases hs with ⟨rfl, -⟩ | ⟨e, rest, hev, he, rfl⟩
  · exact ⟨hr, rfl⟩
  · simp only [hev, List.head?_cons, ne_eq, Option.some.injEq] at htake hreset
    exact after_response (s := { s with events := rest }) hr (by rwa [enabled_events]) htake hreset

/-- Settles O1: the values `State.reset` lists, and the two fields of `CTRL` read from them. -/
theorem resetLeavesTheFailClosedState : Obligations.ResetLeavesTheFailClosedState :=
  ⟨by decide, by decide, State.reset_ctrl, State.reset_rmin, State.reset_rmax, State.reset_raw,
    (State.rspValid_eq_false_iff _).2 State.reset_rsp, State.reset_rsp, State.reset_ridx⟩

/-- Settles O43: no response waits after reset. -/
theorem invariantHoldsAfterReset : Obligations.InvariantHoldsAfterReset :=
  State.inv_of_no_response State.reset_rsp (by simp)

end Sys2Proof.Machine

/-! The block's answer to its lines (R67, R74, R254, R264). First the address field of a record, read through the encoder;
then what a response depends on; then the run of the block over the events that present a line, and over those of a
file. -/

namespace Sys2Proof.Machine

section address

/-- A leading `'0'` does not change a number (R67). -/
@[simp] theorem hexDigits_zero_leading (cs : Line) : hexDigits 0 (0x30#8 :: cs) = hexDigits 0 cs := rfl

/-- `hexnum` reads the characters that stand between a prefix and what follows. -/
theorem hexnum_append (pre field tail : Line) :
    hexnum (pre ++ field ++ tail) pre.length field.length = hexDigits 0 field := by
  simp [hexnum]

/-- The extracted address is the number in the characters after the byte count, as many as the record's type says, when
at least a checksum pair follows them (R97, R171). -/
theorem extractAddr_encode {i : Instr} (count field tail : Line) (hbody : i.body = count ++ field ++ tail)
    (hwidth : addrChars ((i.typeDigit - 0x30#8).setWidth 4) = some field.length) (hcount : count.length = 2)
    (htail : 2 ≤ tail.length) : extractAddr (encode i) = (hexDigits 0 field).map (BitVec.ofNat 32) := by
  have hlong : ¬ (encode i).length < 4 + field.length + 2 := by
    simp only [encode_length, hbody, List.length_append, hcount]; omega
  have hfield : hexnum (encode i) 4 field.length = hexDigits 0 field := by
    have hline : encode i = (codeS :: i.typeDigit :: count) ++ field ++ tail := by simp [encode, hbody]
    have hpre : (codeS :: i.typeDigit :: count).length = 4 := by simp [hcount]
    rw [hline, ← hpre, hexnum_append]
  simp only [extractAddr, recType_encode, Option.bind_some, hwidth, if_neg hlong, hfield]

end address

/-- Settles O31: in each width the field is the four digits behind leading zeros, which leave its number as it is. -/
theorem addressWidthDoesNotChangeTheAddress : Obligations.AddressWidthDoesNotChangeTheAddress := by
  intro field c1 c2 c3 d1 d2 d3 v hfield hv hc1 hc2 hc3 hd1 hd2 hd3
  refine ⟨?_, ?_, ?_⟩
  · rw [extractAddr_encode c1 field d1 rfl (by simp [hfield, Instr.typeDigit, addrChars]) hc1 hd1, hv, Option.map_some]
  · rw [extractAddr_encode c2 ([0x30#8, 0x30#8] ++ field) d2 (by simp [Instr.body])
      (by simp [hfield, Instr.typeDigit, addrChars]) hc2 hd2]
    simp [hv]
  · rw [extractAddr_encode c3 ([0x30#8, 0x30#8, 0x30#8, 0x30#8] ++ field) d3 (by simp [Instr.body])
      (by simp [hfield, Instr.typeDigit, addrChars]) hc3 hd3]
    simp [hv]

section dependence

variable {s s' : State}

/-- The response for a line reads the configuration and the record index, and nothing else of the state (R255, R256). -/
theorem lineResponse_congr (ln : Line) (hctrl : s.ctrl = s'.ctrl) (hrmin : s.rmin = s'.rmin) (hrmax : s.rmax = s'.rmax)
    (hridx : s.ridx = s'.ridx) : lineResponse ln s = lineResponse ln s' := by
  simp only [lineResponse, hctrl, hrmin, hrmax, hridx]

/-- The responses for the lines of a file read the configuration, and nothing else of the state. -/
theorem fileResponses_congr (hctrl : s.ctrl = s'.ctrl) (hrmin : s.rmin = s'.rmin) (hrmax : s.rmax = s'.rmax)
    (ridx : Word) (raws : List Line) : fileResponses s ridx raws = fileResponses s' ridx raws := by
  induction raws generalizing ridx with
  | nil => rfl
  | cons raw raws ih =>
    exact congrArg₂ List.cons (lineResponse_congr (strip raw) hctrl hrmin hrmax rfl) (ih (ridx + 1#32))

end dependence

/-- Settles O48: each state holds the response for the one stripped line, which the configuration and the index give. -/
theorem responseDependsOnLineAndConfigurationOnly : Obligations.ResponseDependsOnLineAndConfigurationOnly := by
  intro s s' t t' hline hctrl hrmin hrmax hridx ht ht'
  rw [perform_eq] at ht ht'
  injection ht with ht
  injection ht' with ht'
  subst ht ht'
  simp only [after, State.respond_rsp, hline, lineResponse_congr _ hctrl hrmin hrmax hridx]

/-- What a block at rest becomes by answering lines one after another, with the host's events that are left: at rest
again, the index and the replies advanced. -/
def State.answered (s : State) (raws : List Line) (rest : List Event) : State :=
  { s with
    ridx := s.ridx + BitVec.ofNat 32 raws.length
    events := rest
    replies := s.replies ++ (fileResponses s s.ridx raws).map .response }

section presenting

variable {s : State} {rest : List Event}

theorem State.answered_nil (hev : s.events = rest) : s.answered [] rest = s := by
  subst hev
  simp [State.answered, fileResponses]

/-- Lines answered one at a time: the index counts on, and the configuration that fixes the responses stays. -/
theorem State.answered_cons (raw : Line) (raws : List Line) (between : List Event) :
    (s.answered [raw] between).answered raws rest = s.answered (raw :: raws) rest := by
  have hindex : s.ridx + 1#32 + BitVec.ofNat 32 raws.length = s.ridx + BitVec.ofNat 32 (raws.length + 1) := by
    rw [Nat.add_comm, BitVec.ofNat_add, BitVec.add_assoc]
  have hfile (ridx : Word) : fileResponses (s.answered [raw] between) ridx raws = fileResponses s ridx raws :=
    fileResponses_congr (s := s.answered [raw] between) (s' := s) rfl rfl rfl ridx raws
  simp [State.answered, fileResponses, ← hindex, ← hfile]

/-- A run whose first event is enabled goes on from what the event makes of the state. -/
theorem run_of_enabled {e : Event} (hev : s.events = e :: rest) (he : enabled e s = true) (n : Nat) :
    Sys2Proof.core.run (n + 1) s = Sys2Proof.core.run n (after e { s with events := rest }) :=
  run_of_step Sys2Proof.core ((step_of_enabled hev he).trans (perform_eq e _)) n

/-- While no response waits, the characters of a line are pushed one after another (R253). -/
theorem run_pushChars (cs : Line) (hrsp : s.rsp = none) (hev : s.events = cs.map .pushChar ++ rest) :
    Sys2Proof.core.run cs.length s = .next { s with raw := s.raw ++ cs, events := rest } := by
  induction cs generalizing s with
  | nil =>
    have hrest : s.events = rest := hev
    subst hrest
    simp [Host.Core.run]
  | cons c cs ih =>
    have he : enabled (.pushChar c) s = true := by simp [enabled, State.rspValid, hrsp]
    have hpush := run_of_enabled (rest := cs.map .pushChar ++ rest) hev he cs.length
    have hrun := ih (s := after (.pushChar c) { s with events := cs.map .pushChar ++ rest }) hrsp rfl
    refine hpush.trans (hrun.trans ?_)
    simp [after, State.pushRaw]

/-- A block at rest that is given a line and its end holds the response for it (R254). -/
theorem run_endRecord (raw : Line) (hraw : s.raw = []) (hrsp : s.rsp = none)
    (hev : s.events = raw.map .pushChar ++ .endRecord :: rest) :
    Sys2Proof.core.run (raw.length + 1) s = .next (State.respond { s with events := rest } (strip raw)) := by
  rw [run_add _ _ _ (run_pushChars raw hrsp hev)]
  refine (run_of_enabled rfl ?_ 0).trans ?_
  · simp [enabled, State.rspValid, hrsp]
  · rw [hraw, List.nil_append]
    rfl

/-- A block at rest answers a presented line and is at rest again, under the next record index (R254, R257). -/
theorem run_presentLine (raw : Line) (hraw : s.raw = []) (hrsp : s.rsp = none)
    (hev : s.events = presentLine raw ++ rest) :
    Sys2Proof.core.run (presentLine raw).length s = .next (s.answered [raw] rest) := by
  have hlength : (presentLine raw).length = raw.length + 1 + 1 := by simp [presentLine]
  have hend := run_endRecord (rest := .takeResponse :: rest) raw hraw hrsp (by simp [hev, presentLine])
  rw [hlength, run_add _ _ _ hend, State.answered, hraw, hrsp]
  exact run_of_enabled (s := State.respond { s with events := .takeResponse :: rest } (strip raw)) rfl rfl 0

/-- A block at rest answers the lines of a presented file in order and is at rest again. -/
theorem run_presentLines (raws : List Line) (hraw : s.raw = []) (hrsp : s.rsp = none)
    (hev : s.events = presentLines raws ++ rest) :
    Sys2Proof.core.run (presentLines raws).length s = .next (s.answered raws rest) := by
  induction raws generalizing s with
  | nil =>
    have hrest : s.events = rest := hev
    exact congrArg Host.Outcome.next (State.answered_nil hrest).symm
  | cons raw raws ih =>
    have hlines : presentLines (raw :: raws) = presentLine raw ++ presentLines raws := rfl
    have hline := run_presentLine (rest := presentLines raws ++ rest) raw hraw hrsp (by simp [hev, hlines])
    rw [hlines, List.length_append, run_add _ _ _ hline, ← State.answered_cons raw raws]
    exact ih (s := s.answered [raw] (presentLines raws ++ rest)) hraw hrsp rfl

end presenting

/-- Settles O50: `State.answered` is the state of the statement, and a run over the file ends in it, line after line. -/
theorem presentedFileIsAnsweredLineByLine : Obligations.PresentedFileIsAnsweredLineByLine :=
  fun raws _ _ hraw hrsp hev => run_presentLines raws hraw hrsp hev

end Sys2Proof.Machine

/-! Lines, decoding and encoding (R91, R95, R98, R103). First what stripping takes off, then which lines are an encoder's,
then the fields of a decoded record; last a composed record, whose hex-pairs read back as the bytes it was composed of. -/

namespace Sys2Proof.Machine

section stripping

theorem isTerminator_iff (c : Byte) : isTerminator c = true ↔ c = codeCR ∨ c = codeLF := by
  simp [isTerminator]

/-- What stripping takes off are terminators, and it takes them off the end (R91). -/
theorem exists_eq_strip_append (raw : Line) : ∃ ts : Line, raw = strip raw ++ ts ∧ ∀ c ∈ ts, isTerminator c = true := by
  induction raw with
  | nil => exact ⟨[], rfl, by simp⟩
  | cons c cs ih =>
    obtain ⟨ts, hcs, hts⟩ := ih
    by_cases hnil : strip cs = []
    · have hall : cs = ts := by simpa [hnil] using hcs
      subst hall
      rw [strip_cons_of_nil hnil]
      split
      next hc => exact ⟨c :: cs, rfl, List.forall_mem_cons.2 ⟨hc, hts⟩⟩
      next => exact ⟨cs, rfl, hts⟩
    · rw [strip_cons_of_ne_nil hnil]
      exact ⟨ts, congrArg (c :: ·) hcs, hts⟩

/-- A stripped line does not end in a terminator (R91). -/
theorem isTerminator_of_strip_getLast? {raw : Line} {c : Byte} (h : (strip raw).getLast? = some c) :
    isTerminator c = false := by
  induction raw with
  | nil => simp at h
  | cons d ds ih =>
    by_cases hnil : strip ds = []
    · rw [strip_cons_of_nil hnil] at h
      split at h
      next => simp at h
      next hd =>
        obtain rfl : d = c := by simpa using h
        simpa using hd
    · rw [strip_cons_of_ne_nil hnil, List.getLast?_cons_of_ne_nil hnil] at h
      exact ih h

/-- Terminators after a line strip off with those it ends in. -/
theorem strip_append_terminators (ln : Line) {ts : Line} (h : ∀ c ∈ ts, isTerminator c = true) :
    strip (ln ++ ts) = strip ln := by
  induction ln with
  | nil => exact strip_terminators h
  | cons c cs ih => rw [List.cons_append, strip, ih, strip]

end stripping

/-- Settles O38: `exists_eq_strip_append` for the suffix, `isTerminator_of_strip_getLast?` for its being maximal. -/
theorem stripTakesExactlyTheTerminators : Obligations.StripTakesExactlyTheTerminators := by
  intro raw
  obtain ⟨ts, hraw, hts⟩ := exists_eq_strip_append raw
  have hlast (c : Byte) (hc : isTerminator c = true) : (strip raw).getLast? ≠ some c := fun h => by
    simp [isTerminator_of_strip_getLast? h] at hc
  exact ⟨ts, hraw, fun c hc => (isTerminator_iff c).1 (hts c hc), hlast codeCR rfl, hlast codeLF rfl⟩

section encoding

theorem typeDigit_not_terminator (i : Instr) : isTerminator i.typeDigit = false := by cases i <;> rfl

/-- The line of an instruction ends as its body does, or in its type digit. -/
theorem encode_getLast? (i : Instr) : (encode i).getLast? = some (i.body.getLast?.getD i.typeDigit) := by
  simp [encode, List.getLast?_cons]

theorem isStripped_iff (i : Instr) :
    i.isStripped = true ↔ isTerminator (i.body.getLast?.getD i.typeDigit) = false := by
  unfold Instr.isStripped
  split
  next h => simp [h, typeDigit_not_terminator i]
  next c h => simp [h]

/-- A stripped instruction's line decodes to it, whatever terminators follow (R91, R95). -/
theorem decode_encode_append {i : Instr} {ts : Line} (hi : i.isStripped = true)
    (hts : ∀ c ∈ ts, isTerminator c = true) : decode (encode i ++ ts) = .ok i := by
  have hline : strip (encode i) = encode i := strip_eq_self (encode_getLast? i) ((isStripped_iff i).1 hi)
  rw [decode, strip_append_terminators _ hts, hline, classify_encode]

theorem decode_encode {i : Instr} (hi : i.isStripped = true) : decode (encode i) = .ok i := by
  simpa using decode_encode_append (ts := []) hi

/-- Every line with a good marker is the line of an instruction (R94, R95). -/
theorem exists_encode_of_recType {ln : Line} {t : BitVec 4} (h : recType ln = some t) : ∃ i, encode i = ln := by
  obtain ⟨d, rest, rfl, hlo, hhi, -⟩ := recType_some.1 h
  have hdigit : d = 0x30#8 ∨ d = 0x31#8 ∨ d = 0x32#8 ∨ d = 0x33#8 ∨ d = 0x34#8 ∨ d = 0x35#8 ∨ d = 0x36#8 ∨ d = 0x37#8 ∨
      d = 0x38#8 ∨ d = 0x39#8 := by bv_omega
  rcases hdigit with rfl | rfl | rfl | rfl | rfl | rfl | rfl | rfl | rfl | rfl
  exacts [⟨.s0 rest, rfl⟩, ⟨.s1 rest, rfl⟩, ⟨.s2 rest, rfl⟩, ⟨.s3 rest, rfl⟩, ⟨.s4 rest, rfl⟩, ⟨.s5 rest, rfl⟩,
    ⟨.s6 rest, rfl⟩, ⟨.s7 rest, rfl⟩, ⟨.s8 rest, rfl⟩, ⟨.s9 rest, rfl⟩]

/-- A line is no instruction exactly when it has no type (R94, R104). -/
theorem classify_error_iff (ln : Line) : (∃ e, classify ln = .error e) ↔ recType ln = none := by
  cases ht : recType ln with
  | some t =>
    obtain ⟨i, rfl⟩ := exists_encode_of_recType ht
    simp [classify_encode]
  | none =>
    cases hc : classify ln with
    | error e => simp
    | ok i =>
      rw [← classify_ok hc, recType_encode] at ht
      cases ht

end encoding

/-- Settles O39: of a well-formed instruction only its being stripped matters to `decode_encode_append`. -/
theorem encodedRecordsDecodeBack : Obligations.EncodedRecordsDecodeBack := by
  intro i ts hi hts
  have hstripped : i.isStripped = true := (Bool.and_eq_true_iff.1 hi).1
  exact decode_encode_append hstripped fun c hc => (isTerminator_iff c).2 (hts c hc)

/-- Settles O40: the line of the instruction is the stripped line, which ends in no terminator; and what is no
instruction has no type. -/
theorem decodingLosesNoCharacter : Obligations.DecodingLosesNoCharacter := by
  refine fun raw => ⟨fun i hi => ?_, classify_error_iff (strip raw)⟩
  have hline : encode i = strip raw := classify_ok hi
  exact ⟨hline, (isStripped_iff i).2 (isTerminator_of_strip_getLast? (hline ▸ encode_getLast? i))⟩

/-- Settles O41: the ten words are lines of instructions without a body; the other four are no row's. -/
theorem markerWordsDecode : Obligations.MarkerWordsDecode :=
  ⟨decode_encode (i := .s0 []) rfl, decode_encode (i := .s1 []) rfl, decode_encode (i := .s2 []) rfl,
    decode_encode (i := .s3 []) rfl, decode_encode (i := .s4 []) rfl, decode_encode (i := .s5 []) rfl,
    decode_encode (i := .s6 []) rfl, decode_encode (i := .s7 []) rfl, decode_encode (i := .s8 []) rfl,
    decode_encode (i := .s9 []) rfl, by decide, by decide, by decide, by decide⟩

section fields

variable {ln : Line}

/-- An extracted address is the number in the field of a data record, which ends before the checksum pair (R171). -/
theorem extractAddr_some {a : Word} (h : extractAddr ln = some a) : ∃ t w, recType ln = some t ∧ addrChars t = some w ∧
    4 + w + 2 ≤ ln.length ∧ hexnum ln 4 w = some a.toNat := by
  unfold extractAddr at h
  split at h
  next => cases h
  next w htw =>
    split at h
    next => cases h
    next hl =>
      obtain ⟨t, ht, hw⟩ := Option.bind_eq_some_iff.1 htw
      obtain ⟨v, hv, rfl⟩ := Option.map_eq_some_iff.1 h
      have hv32 : v < 2 ^ 32 := hexnum_lt32 (addrChars_le hw).1 hv
      exact ⟨t, w, ht, hw, Nat.not_lt.1 hl, by rw [hv, BitVec.toNat_ofNat, Nat.mod_eq_of_lt hv32]⟩

theorem extractAddr_field {t : BitVec 4} {w : Nat} {a : Word} (h : extractAddr ln = some a) (ht : recType ln = some t)
    (hw : addrChars t = some w) : 4 + w + 2 ≤ ln.length ∧ hexnum ln 4 w = some a.toNat := by
  obtain ⟨t', w', ht', hw', hfield⟩ := extractAddr_some h
  obtain rfl : t = t' := Option.some.inj (ht.symm.trans ht')
  obtain rfl : w = w' := Option.some.inj (hw.symm.trans hw')
  exact hfield

@[simp] theorem pair_drop (n i : Nat) : pair (ln.drop n) i = pair ln (n + i) := by
  simp [pair, Nat.add_assoc]

theorem pair_take {m i : Nat} (h : i + 1 < m) : pair (ln.take m) i = pair ln i := by
  simp [pair, h, Nat.lt_of_succ_lt h]

/-- Byte `k` of the data field is the `k`-th pair after the address (R98). -/
theorem dataField_getElem? {w k : Nat} {ds : List Byte} (h : dataField ln w = some ds) (hk : k < ds.length) :
    ds[k]? = pair ln (4 + w + 2 * k) := by
  have hlen := dataField_length h
  rw [hexPairs_getElem? h, pair_take (by omega), pair_drop]

/-- A data record of even length, hex after its marker, decodes to its address and its data field (R174). -/
theorem decodeRecord_of_fields {t : BitVec 4} {w : Nat} {a : Word} {ds : List Byte} (ht : recType ln = some t)
    (hw : addrChars t = some w) (heven : ln.length % 2 = 0) (hhex : hexAfterMarker ln = true)
    (ha : extractAddr ln = some a) (hds : dataField ln w = some ds) : decodeRecord ln = .decoded a ds := by
  obtain ⟨hl, hfield⟩ := extractAddr_field ha ht hw
  have hshort : ¬ (ln.length < 4 + w + 2 ∨ ln.length % 2 = 1) := by omega
  simp [decodeRecord, ht, hw, decodeData, hshort, hhex, hfield, hds]

end fields

/-- Settles O32: a decoded address is the extracted one, and the data are the data field. -/
theorem decodedDataIsEveryRemainingPair : Obligations.DecodedDataIsEveryRemainingPair := by
  intro ln a ds h
  obtain ⟨ha, t, w, ht, hw, hds⟩ := decodeRecord_decoded h
  obtain ⟨-, hfield⟩ := extractAddr_field ha ht hw
  have hlen := dataField_length hds
  exact ⟨t, w, ht, hw, hfield, by omega, fun k hk => dataField_getElem? hds hk⟩

section digits

@[simp] theorem hexval_hexDigit (n : BitVec 4) : hexval (hexDigit n) = some n.toNat := by
  revert n; decide

/-- A byte is its two nibbles, the high one first (R64). -/
theorem nibbles_toNat (b : Byte) : 16 * (b.extractLsb' 4 4).toNat + (b.extractLsb' 0 4).toNat = b.toNat := by
  have := b.isLt
  simp only [BitVec.extractLsb'_toNat, Nat.shiftRight_eq_div_pow]
  omega

@[simp] theorem hexPairs_hexByte (b : Byte) : hexPairs (hexByte b) = some [b] := by
  simp [hexByte, hexPairs, hexPair, nibbles_toNat, -BitVec.extractLsb'_toNat]

/-- Bytes written as hex characters read back (R64, R103). -/
@[simp] theorem hexPairs_hexBytes (bs : List Byte) : hexPairs (bs.flatMap hexByte) = some bs := by
  induction bs with
  | nil => rfl
  | cons b bs ih => exact hexPairs_append (hexPairs_hexByte b) ih

theorem hexBytes_length (bs : List Byte) : (bs.flatMap hexByte).length = 2 * bs.length :=
  hexPairs_length (hexPairs_hexBytes bs)

/-- The two characters of a byte move a number eight bits up and add the byte (R65). -/
theorem hexDigits_hexByte_append (acc : Nat) (b : Byte) (cs : Line) :
    hexDigits acc (hexByte b ++ cs) = hexDigits (256 * acc + b.toNat) cs := by
  have hacc : 16 * (16 * acc + (b.extractLsb' 4 4).toNat) + (b.extractLsb' 0 4).toNat = 256 * acc + b.toNat := by
    have := nibbles_toNat b
    omega
  simp [hexByte, hexDigits, hacc, -BitVec.extractLsb'_toNat]

@[simp] theorem bigEndian_length (n : Nat) (a : Word) : (bigEndian n a).length = n := by simp [bigEndian]

theorem bigEndian_succ (n : Nat) (a : Word) : bigEndian (n + 1) a = (a >>> (8 * n)).setWidth 8 :: bigEndian n a := by
  simp [bigEndian, List.range_succ_eq_map, Nat.sub_add_eq, Nat.sub_right_comm]

/-- The bytes of an address, most significant first, are the digits of its number to the base 256 (R65). -/
theorem hexDigits_bigEndian (n acc : Nat) (a : Word) :
    hexDigits acc ((bigEndian n a).flatMap hexByte) = some (acc * 256 ^ n + a.toNat % 256 ^ n) := by
  induction n generalizing acc with
  | zero => simp [bigEndian, hexDigits, Nat.mod_one]
  | succ n ih =>
    have htop : ((a >>> (8 * n)).setWidth 8).toNat = a.toNat / 256 ^ n % 256 := by
      simp [Nat.shiftRight_eq_div_pow, pow_mul]
    rw [bigEndian_succ, List.flatMap_cons, hexDigits_hexByte_append, ih, htop, Nat.mod_pow_succ, Option.some.injEq]
    ring

end digits

section composed

variable {i : Instr} {content : List Byte}

/-- The bytes of a composed record that its checksum covers: the byte count and the content (R103). -/
def countedBytes (content : List Byte) : List Byte := BitVec.ofNat 8 (content.length + 1) :: content

@[simp] theorem countedBytes_length : (countedBytes content).length = content.length + 1 := rfl

theorem composeBody_eq (content : List Byte) :
    composeBody content = (countedBytes content ++ [calcChecksum (countedBytes content)]).flatMap hexByte := rfl

/-- The hex-pairs of a composed record: what was counted, and its checksum (R103). -/
theorem hexPairs_composed (hbody : i.body = composeBody content) :
    hexPairs ((encode i).drop 2) = some (countedBytes content ++ [calcChecksum (countedBytes content)]) := by
  have hdrop : (encode i).drop 2 = composeBody content := hbody
  rw [hdrop, composeBody_eq, hexPairs_hexBytes]

theorem composed_length (hbody : i.body = composeBody content) : (encode i).length = 2 * content.length + 6 := by
  have h := hexPairs_length (hexPairs_composed hbody)
  simp only [List.length_drop, List.length_append, countedBytes_length, encode_length, List.length_singleton] at h ⊢
  omega

theorem composed_hexAfterMarker (hbody : i.body = composeBody content) : hexAfterMarker (encode i) = true := by
  have h := hexPairs_isSome ((encode i).drop 2)
  rw [hexPairs_composed hbody] at h
  exact (Bool.and_eq_true_iff.1 h.symm).2

/-- A composed record passes LengthCheck when its count fits a byte (R103, R133). -/
theorem composed_lengthCheck (hbody : i.body = composeBody content) (hfit : content.length + 1 ≤ 255) :
    lengthCheck (encode i) = true := by
  have hlen := composed_length hbody
  have hcount : byteCount (encode i) = some (BitVec.ofNat 8 (content.length + 1)) := by
    have h := hexPairs_getElem? (hexPairs_composed hbody) 0
    rw [pair_drop] at h
    exact h.symm
  have hlong : ¬ (encode i).length < 4 := by omega
  have hodd : ¬ (encode i).length % 2 = 1 := by omega
  have hvalue : (content.length + 1) % 2 ^ 8 = ((encode i).length - 4) / 2 := by omega
  simp only [lengthCheck, hlong, hodd, hcount, if_false, BitVec.toNat_ofNat, hvalue, beq_self_eq_true]

/-- A composed record passes ChecksumCheck (R103, R135). -/
theorem composed_checksumCheck (hbody : i.body = composeBody content) : checksumCheck (encode i) = true := by
  have hlen := composed_length hbody
  have hlong : ¬ ((encode i).length < 6 ∨ (encode i).length % 2 = 1) := by omega
  simp only [checksumCheck, hlong, composed_hexAfterMarker hbody, hexPairs_composed hbody, if_false, Bool.not_true,
    Bool.false_eq_true, List.dropLast_concat, List.getLast?_concat, beq_self_eq_true]

end composed

section composedData

variable {i : Instr} {n : Nat} {a : Word} {ds : List Byte}

/-- The line of a record composed of an address and data: marker and byte count, address field, data field, checksum pair
(R93, R103). -/
theorem encode_composed_fields (hbody : i.body = composeBody (bigEndian n a ++ ds)) : ∃ count ck : Byte,
    encode i = (codeS :: i.typeDigit :: hexByte count) ++ (bigEndian n a).flatMap hexByte ++
      (ds.flatMap hexByte ++ hexByte ck) :=
  ⟨BitVec.ofNat 8 ((bigEndian n a ++ ds).length + 1), calcChecksum (countedBytes (bigEndian n a ++ ds)),
    by simp [encode, hbody, composeBody_eq, countedBytes]⟩

/-- The data field is what stands between the address and the checksum pair. -/
theorem dataField_append (pre field tail : Line) {w : Nat} (hpre : pre.length = 4 + w) (htail : tail.length = 2) :
    dataField (pre ++ (field ++ tail)) w = hexPairs field := by
  have hlen : (pre ++ (field ++ tail)).length - 4 - w - 2 = field.length := by
    simp only [List.length_append]; omega
  rw [dataField, hlen, ← hpre, List.drop_left, List.take_left]

theorem composed_dataField (hbody : i.body = composeBody (bigEndian n a ++ ds)) :
    dataField (encode i) (2 * n) = some ds := by
  obtain ⟨count, ck, hline⟩ := encode_composed_fields hbody
  rw [hline, dataField_append _ _ _ (by simp [hexByte]; omega) rfl, hexPairs_hexBytes]

/-- An address that its field can hold is the one extracted (R103, R171). -/
theorem composed_extractAddr (hbody : i.body = composeBody (bigEndian n a ++ ds)) (ha : a.toNat < 256 ^ n)
    (hwidth : addrChars ((i.typeDigit - 0x30#8).setWidth 4) = some (2 * n)) : extractAddr (encode i) = some a := by
  obtain ⟨count, ck, hline⟩ := encode_composed_fields hbody
  have hbody' : i.body = hexByte count ++ (bigEndian n a).flatMap hexByte ++ (ds.flatMap hexByte ++ hexByte ck) :=
    congrArg (List.drop 2) hline
  have hfield : addrChars ((i.typeDigit - 0x30#8).setWidth 4) = some ((bigEndian n a).flatMap hexByte).length := by
    rw [hexBytes_length, bigEndian_length, hwidth]
  rw [extractAddr_encode _ _ _ hbody' hfield rfl (by simp [hexByte]), hexDigits_bigEndian]
  simp [Nat.mod_eq_of_lt ha]

end composedData

section accepting

variable {ln : Line}

theorem formatCheck_of_expected {t : BitVec 4} (ht : recType ln = some t) : formatCheck ln t = true := by
  simp [formatCheck, ht]

theorem addressCheck_of_window {a rmin rmax : Word} (h : extractAddr ln = some a) (hlo : rmin.toNat ≤ a.toNat)
    (hhi : a.toNat ≤ rmax.toNat) : addressCheck ln rmin rmax = true := by
  obtain ⟨t, w, ht, hw, -, -⟩ := extractAddr_some h
  have hdata : isData t = true := isData_iff.2 ⟨w, hw⟩
  simp [addressCheck, ht, hdata, h, BitVec.le_def, hlo, hhi]

/-- A line that passes the four checks is `OK`, with no reason, in either mode (R137, R138). -/
theorem validate_of_passes {exptype : BitVec 4} {rmin rmax : Word} (stop : Bool) (hfmt : formatCheck ln exptype = true)
    (hlen : lengthCheck ln = true) (hrng : addressCheck ln rmin rmax = true) (hchk : checksumCheck ln = true) :
    validate ln exptype rmin rmax stop = ⟨true, 0#4⟩ := by
  have hall : checkAll ln exptype rmin rmax = ⟨false, false, false, false⟩ := by
    simp [checkAll, hfmt, hlen, hrng, hchk]
  rw [validate, hall]
  cases stop <;> rfl

end accepting

/-- A record composed of an address and data, under a configuration that expects its type and whose window holds the
address, is answered with `OK` and exactly that address and data (R103, R142, R255). -/
theorem exec_composed {i : Instr} {t : BitVec 4} {n : Nat} {a : Word} {ds : List Byte} {s : State}
    (hbody : i.body = composeBody (bigEndian n a ++ ds)) (htype : recType (encode i) = some t)
    (hwidth : addrChars t = some (2 * n)) (hexp : expType s.ctrl = t) (ha : a.toNat < 16 ^ (2 * n))
    (hfit : ds.length + n + 1 ≤ 255) (hlo : s.rmin.toNat ≤ a.toNat) (hhi : a.toNat ≤ s.rmax.toNat) :
    exec i s = .next { s with raw := [], rsp := some ⟨s.ridx, .processed true 0#4 (.decoded a ds) (some a)⟩ } := by
  have hcontent : (bigEndian n a ++ ds).length + 1 ≤ 255 := by simp only [List.length_append, bigEndian_length]; omega
  have hlength := composed_length hbody
  have hlmax := Config.le_lmax
  have hdigit : (i.typeDigit - 0x30#8).setWidth 4 = t := Option.some.inj ((recType_encode i).symm.trans htype)
  have haddr : extractAddr (encode i) = some a :=
    composed_extractAddr hbody (by rwa [pow_mul] at ha) (by rw [hdigit, hwidth])
  have hdecoded : decodeRecord (encode i) = .decoded a ds :=
    decodeRecord_of_fields htype hwidth (by omega) (composed_hexAfterMarker hbody) haddr (composed_dataField hbody)
  have hvalid := validate_of_passes (stopBit s.ctrl) (formatCheck_of_expected htype)
    (composed_lengthCheck hbody hcontent) (addressCheck_of_window haddr hlo hhi) (composed_checksumCheck hbody)
  rw [exec_eq, State.respond, lineResponse_of_fits s (by omega), processedResponse, hexp, hvalid, hdecoded, haddr]
  rfl

/-- Settles O42: the content of each record is its address, in 2, 3 or 4 bytes, and its data. -/
theorem composedDataRecordsAreAccepted : Obligations.ComposedDataRecordsAreAccepted := by
  intro a ds s hlo hhi p hp hexp ha hfit
  simp only [List.mem_cons, List.not_mem_nil, or_false] at hp
  rcases hp with rfl | rfl | rfl
  · exact exec_composed (n := 2) rfl (by simp [recType_encode, Instr.typeDigit]) rfl hexp ha hfit hlo hhi
  · exact exec_composed (n := 3) rfl (by simp [recType_encode, Instr.typeDigit]) rfl hexp ha hfit hlo hhi
  · exact exec_composed (n := 4) rfl (by simp [recType_encode, Instr.typeDigit]) rfl hexp ha hfit hlo hhi

end Sys2Proof.Machine

/-! The validator (40_validator.md). What each of the four checks passes, said once: FormatCheck and AddressCheck by the
type of the line, LengthCheck by its count, ChecksumCheck by the hex-pairs after the marker, whose sum is a sum in the
8-bit words. The verdict is then the conjunction of the four, and well-formedness (R100) is all of it that does not
depend on the configuration. -/

namespace Sys2Proof.Machine

/-- Settles O18: a record's meaning is `State.respond` on its line, which writes `RSP` and empties `RAW`
(R144, R254). -/
theorem recordsChangeOnlyTheResponse : Obligations.RecordsChangeOnlyTheResponse := by
  intro i s t h
  rw [exec_eq, Host.Outcome.next.injEq] at h
  subst h
  exact ⟨s.respond_ctrl _, s.respond_rmin _, s.respond_rmax _, s.respond_ridx _, s.respond_raw _, s.respond_events _,
    s.respond_replies _, _, s.respond_rsp _, lineResponse_ridx _ s⟩

section sums

/-- `SUM` is the sum of the list in the 8-bit words, so the library's laws of sums speak of it. -/
theorem sumBytes_eq_sum (bs : List Byte) : sumBytes bs = bs.sum := List.sum_eq_foldl.symm

/-- Wrapping at every addition or once at the end gives the same byte (R139). -/
theorem sumBytes_toNat (bs : List Byte) : (sumBytes bs).toNat = (bs.map BitVec.toNat).sum % 256 := by
  rw [sumBytes_eq_sum]
  induction bs with
  | nil => rfl
  | cons b bs ih => rw [List.sum_cons, BitVec.toNat_add, ih, List.map_cons, List.sum_cons, Nat.add_mod_mod]

theorem calcChecksum_toNat (bs : List Byte) : (calcChecksum bs).toNat = 255 - (sumBytes bs).toNat :=
  BitVec.toNat_not

/-- A last byte is the checksum of those before it exactly when all of them sum to 255 (R140). -/
theorem eq_calcChecksum_iff (bs : List Byte) (ck : Byte) : ck = calcChecksum bs ↔ sumBytes (bs ++ [ck]) = 0xFF#8 := by
  have happend : sumBytes (bs ++ [ck]) = sumBytes bs + ck := by simp [sumBytes_eq_sum]
  have hcalc := calcChecksum_toNat bs
  rw [happend]
  generalize sumBytes bs = sum at *
  bv_omega

/-- One byte changed to another value changes the sum. -/
theorem sumBytes_set_ne {bs : List Byte} {k : Nat} {b : Byte} (hk : k < bs.length) (hb : bs[k]? ≠ some b) :
    sumBytes (bs.set k b) ≠ sumBytes bs := by
  rw [sumBytes_eq_sum, sumBytes_eq_sum, List.sum_set', dif_pos hk]
  intro h
  have hsame : b = bs[k] := (neg_add_eq_zero.1 (add_eq_left.1 h)).symm
  exact hb (hsame ▸ List.getElem?_eq_getElem hk)

end sums

/-- Settles O24: the complement of a byte is its exclusive or with all ones. -/
theorem wrappingSumIsTheWideSum : Obligations.WrappingSumIsTheWideSum :=
  fun bs => ⟨sumBytes_toNat bs, (BitVec.xor_allOnes (x := sumBytes bs)).symm, calcChecksum_toNat bs⟩

section checks

variable {ln : Line}

/-- FormatCheck looks at the type alone (R132). -/
theorem formatCheck_iff {exptype : BitVec 4} :
    formatCheck ln exptype = true ↔ ∃ t, recType ln = some t ∧ (isData t = true → t = exptype) := by
  cases ht : recType ln <;> simp [formatCheck, ht, or_iff_not_imp_left]

theorem lengthCheck_iff : lengthCheck ln = true ↔
    4 ≤ ln.length ∧ ln.length % 2 = 0 ∧ ∃ bc, pair ln 2 = some bc ∧ bc.toNat = (ln.length - 4) / 2 := by
  by_cases hshort : ln.length < 4
  · simp [lengthCheck, hshort, Nat.not_le.2 hshort]
  · cases hbc : pair ln 2 <;> simp [lengthCheck, byteCount, hbc, hshort, Nat.not_lt.1 hshort]

/-- A number of at most 32 bits in the field of a data record is its extracted address (R171). -/
theorem extractAddr_of_field {t : BitVec 4} {w v : Nat} (ht : recType ln = some t) (hw : addrChars t = some w)
    (hl : 4 + w + 2 ≤ ln.length) (hv : hexnum ln 4 w = some v) :
    ∃ a, extractAddr ln = some a ∧ a.toNat = v := by
  have hv32 : v < 2 ^ 32 := hexnum_lt32 (addrChars_le hw).1 hv
  exact ⟨BitVec.ofNat 32 v, by simp [extractAddr, ht, hw, hv, Nat.not_lt.2 hl],
    by rw [BitVec.toNat_ofNat, Nat.mod_eq_of_lt hv32]⟩

/-- AddressCheck holds the extracted address of a data record to the window, as numbers (R134). -/
theorem addressCheck_iff_extractAddr {rmin rmax : Word} : addressCheck ln rmin rmax = true ↔
    ∃ t, recType ln = some t ∧
      (isData t = true → ∃ a, extractAddr ln = some a ∧ rmin.toNat ≤ a.toNat ∧ a.toNat ≤ rmax.toNat) := by
  cases ht : recType ln with
  | none => simp [addressCheck, ht]
  | some t =>
    cases hd : isData t
    · simp [addressCheck, ht, hd]
    · cases ha : extractAddr ln <;> simp [addressCheck, ht, hd, ha, BitVec.le_def]

/-- AddressCheck by the characters of the address field (R134). -/
theorem addressCheck_iff {rmin rmax : Word} : addressCheck ln rmin rmax = true ↔
    ∃ t, recType ln = some t ∧ ∀ w, addrChars t = some w →
      4 + w + 2 ≤ ln.length ∧ ∃ v, hexnum ln 4 w = some v ∧ rmin.toNat ≤ v ∧ v ≤ rmax.toNat := by
  rw [addressCheck_iff_extractAddr]
  refine exists_congr fun t => and_congr_right fun ht => ⟨fun h w hw => ?_, fun h hd => ?_⟩
  · obtain ⟨a, ha, hwindow⟩ := h (isData_iff.2 ⟨w, hw⟩)
    obtain ⟨hl, hfield⟩ := extractAddr_field ha ht hw
    exact ⟨hl, a.toNat, hfield, hwindow⟩
  · obtain ⟨w, hw⟩ := isData_iff.1 hd
    obtain ⟨hl, v, hv, hwindow⟩ := h w hw
    obtain ⟨a, ha, rfl⟩ := extractAddr_of_field ht hw hl hv
    exact ⟨a, ha, hwindow⟩

/-- Two bytes or more are a nonempty list and a last byte, the place of the checksum. -/
theorem exists_concat_of_two_le {bs : List Byte} (h : 2 ≤ bs.length) :
    ∃ front ck, bs = front ++ [ck] ∧ front ≠ [] := by
  rcases bs.eq_nil_or_concat' with rfl | ⟨front, ck, rfl⟩
  · simp at h
  · exact ⟨front, ck, rfl, by rintro rfl; simp at h⟩

/-- A line cut into pairs after its marker, one of them its last, has their characters and the marker's, and is hex
after the marker. -/
theorem shape_of_hexPairs_concat {bs : List Byte} {ck : Byte} (h : hexPairs (ln.drop 2) = some (bs ++ [ck])) :
    ln.length = 2 * bs.length + 4 ∧ hexAfterMarker ln = true := by
  have hlen := hexPairs_length h
  have hsome := hexPairs_isSome (ln.drop 2)
  rw [List.length_drop, List.length_append, List.length_singleton] at hlen
  rw [h, Option.isSome_some] at hsome
  exact ⟨by omega, (Bool.and_eq_true_iff.1 hsome.symm).2⟩

/-- ChecksumCheck passes when the pairs after the marker end in the checksum of those before, of which there is one at
least (R135). -/
theorem checksumCheck_iff : checksumCheck ln = true ↔
    ∃ bs ck, hexPairs (ln.drop 2) = some (bs ++ [ck]) ∧ bs ≠ [] ∧ ck = calcChecksum bs := by
  constructor
  · intro h
    unfold checksumCheck at h
    split at h
    next => cases h
    next hdomain =>
      split at h
      next => cases h
      next =>
        split at h
        next => cases h
        next bs hbs =>
          have hlen := hexPairs_length hbs
          rw [List.length_drop] at hlen
          obtain ⟨bs, ck, rfl, hne⟩ := exists_concat_of_two_le (bs := bs) (by omega)
          rw [List.dropLast_concat, List.getLast?_concat, beq_iff_eq, Option.some.injEq] at h
          exact ⟨bs, ck, hbs, hne, h.symm⟩
  · rintro ⟨bs, ck, hbs, hne, rfl⟩
    obtain ⟨hlen, hhex⟩ := shape_of_hexPairs_concat hbs
    have hpos := List.length_pos_iff.2 hne
    have hdomain : ¬ (ln.length < 6 ∨ ln.length % 2 = 1) := by omega
    simp [checksumCheck, hdomain, hhex, hbs]

/-- A line that passes ChecksumCheck is in its domain: long enough, even, and hex after the marker (R135). -/
theorem checksumCheck_domain (h : checksumCheck ln = true) :
    6 ≤ ln.length ∧ ln.length % 2 = 0 ∧ hexAfterMarker ln = true := by
  obtain ⟨bs, ck, hbs, hne, -⟩ := checksumCheck_iff.1 h
  obtain ⟨hlen, hhex⟩ := shape_of_hexPairs_concat hbs
  have hpos := List.length_pos_iff.2 hne
  exact ⟨by omega, by omega, hhex⟩

/-- ChecksumCheck with its domain written out and the wide sum in place of the wrapping one (R135, R139). -/
theorem checksumCheck_iff_wide : checksumCheck ln = true ↔
    6 ≤ ln.length ∧ ln.length % 2 = 0 ∧ (∀ i c, 2 ≤ i → ln[i]? = some c → (hexval c).isSome) ∧
      ∃ bs ck, hexPairs (ln.drop 2) = some (bs ++ [ck]) ∧ ck.toNat = 255 - (bs.map BitVec.toNat).sum % 256 := by
  have hwide (bs : List Byte) (ck : Byte) :
      ck = calcChecksum bs ↔ ck.toNat = 255 - (bs.map BitVec.toNat).sum % 256 := by
    rw [← BitVec.toNat_inj, calcChecksum_toNat, sumBytes_toNat]
  constructor
  · intro h
    obtain ⟨hlong, heven, hhex⟩ := checksumCheck_domain h
    obtain ⟨bs, ck, hbs, -, hck⟩ := checksumCheck_iff.1 h
    exact ⟨hlong, heven, hexAfterMarker_iff.1 hhex, bs, ck, hbs, (hwide bs ck).1 hck⟩
  · rintro ⟨hlong, -, -, bs, ck, hbs, hck⟩
    have hlen := (shape_of_hexPairs_concat hbs).1
    exact checksumCheck_iff.2 ⟨bs, ck, hbs, List.length_pos_iff.1 (by omega), (hwide bs ck).2 hck⟩

/-- ChecksumCheck of a line whose pairs are given: two at least, that sum to 255 (R140). -/
theorem checksumCheck_iff_sumBytes {bs : List Byte} (h : hexPairs (ln.drop 2) = some bs) :
    checksumCheck ln = true ↔ 2 ≤ bs.length ∧ sumBytes bs = 0xFF#8 := by
  rw [checksumCheck_iff, h]
  constructor
  · rintro ⟨bs, ck, hbs, hne, hck⟩
    obtain rfl := Option.some.inj hbs
    have hpos := List.length_pos_iff.2 hne
    exact ⟨by simp; omega, (eq_calcChecksum_iff bs ck).1 hck⟩
  · rintro ⟨hlen, hsum⟩
    obtain ⟨bs, ck, rfl, hne⟩ := exists_concat_of_two_le hlen
    exact ⟨bs, ck, rfl, hne, (eq_calcChecksum_iff bs ck).2 hsum⟩

end checks

/-- Settles O20: the type is the second character's digit, and the data types are 1, 2 and 3. -/
theorem formatCheckPassesExactly : Obligations.FormatCheckPassesExactly := by
  intro ln exptype
  have hdata (t : BitVec 4) : isData t = true ↔ t.toNat = 1 ∨ t.toNat = 2 ∨ t.toNat = 3 := by revert t; decide
  rw [formatCheck_iff]
  constructor
  · rintro ⟨t, ht, hexp⟩
    obtain ⟨d, rest, hln, hlo, hhi, htd⟩ := recType_some.1 ht
    refine ⟨d, rest, hln, hlo, hhi, fun hd => ?_⟩
    rw [← hexp ((hdata t).2 (by omega)), htd]
  · rintro ⟨d, rest, hln, hlo, hhi, hexp⟩
    have htd : (BitVec.ofNat 4 (d.toNat - 0x30)).toNat = d.toNat - 0x30 := by
      rw [BitVec.toNat_ofNat]; omega
    refine ⟨_, recType_some.2 ⟨d, rest, hln, hlo, hhi, htd⟩, fun hd => ?_⟩
    have hd := (hdata _).1 hd
    rw [← BitVec.toNat_inj, htd, hexp (by omega)]

/-- Settles O21: a byte count is at most 255, so the length is at most 514. -/
theorem lengthCheckPassesExactly : Obligations.LengthCheckPassesExactly := by
  refine fun ln => ⟨lengthCheck_iff, fun hlong => ?_⟩
  rw [← Bool.not_eq_true, lengthCheck_iff]
  rintro ⟨-, heven, bc, -, hbc⟩
  have := bc.isLt
  omega

/-- Settles O22: the widths of the statement are `W(t)`. -/
theorem addressCheckPassesExactly : Obligations.AddressCheckPassesExactly := by
  intro ln rmin rmax
  simp only [← addrChars_some]
  exact addressCheck_iff

/-- Settles O23: the domain follows from the pairs, and the wide sum is the wrapping one. -/
theorem checksumCheckPassesExactly : Obligations.ChecksumCheckPassesExactly :=
  fun _ => checksumCheck_iff_wide

/-- Settles O25: the verdict is a property of the sum of the pairs, which one changed pair changes and an exchange does
not. -/
theorem checksumSeesOneChangedPairButNoOrder : Obligations.ChecksumSeesOneChangedPairButNoOrder := by
  refine ⟨?_, ?_, ?_⟩
  · intro ln bs hlong hbs
    have hlen := hexPairs_length hbs
    rw [List.length_drop] at hlen
    have htwo : 2 ≤ bs.length := by omega
    rw [checksumCheck_iff_sumBytes hbs, ← BitVec.toNat_inj, sumBytes_toNat]
    exact and_iff_right htwo
  · intro ln ln' bs k b hbs hbs' hk hb hpass
    obtain ⟨-, hsum⟩ := (checksumCheck_iff_sumBytes hbs).1 hpass
    rw [← Bool.not_eq_true, checksumCheck_iff_sumBytes hbs', ← hsum]
    exact fun h => sumBytes_set_ne hk hb h.2
  · intro ln ln' bs bs' hbs hbs' hperm
    rw [Bool.eq_iff_iff, checksumCheck_iff_sumBytes hbs, checksumCheck_iff_sumBytes hbs', hperm.length_eq,
      sumBytes_eq_sum, sumBytes_eq_sum, hperm.sum_eq]

section verdicts

/-- The list of collect mode's reasons names each failing check, in the order of the checks (R137). -/
theorem reasonList_mask (f : CheckFailures) : reasonList f.mask =
    (if f.fmt then [.formatError] else []) ++ (if f.len then [.lengthError] else []) ++
      (if f.rng then [.rangeError] else []) ++ (if f.chk then [.checksumError] else []) := by
  obtain ⟨fmt, len, rng, chk⟩ := f
  revert fmt len rng chk
  decide

theorem mask_getLsbD (f : CheckFailures) : f.mask.getLsbD 0 = f.fmt ∧ f.mask.getLsbD 1 = f.len ∧
    f.mask.getLsbD 2 = f.rng ∧ f.mask.getLsbD 3 = f.chk := by
  obtain ⟨fmt, len, rng, chk⟩ := f
  revert fmt len rng chk
  decide

/-- Stop mode keeps of the failing checks the first (R138, R141). -/
theorem reasonList_stopReasons (f : CheckFailures) : reasonList (stopReasons f) = (reasonList f.mask).take 1 := by
  obtain ⟨fmt, len, rng, chk⟩ := f
  revert fmt len rng chk
  decide

/-- In either mode `v_ok` says that no check failed (R137, R138). -/
theorem verdictOf_vOk (stop : Bool) (f : CheckFailures) :
    (verdictOf stop f).vOk = (!f.fmt && !f.len && !f.rng && !f.chk) := by
  obtain ⟨fmt, len, rng, chk⟩ := f
  revert stop fmt len rng chk
  decide

/-- `OK` is that all four checks pass, whatever the mode (R141, R142). -/
theorem validate_vOk_iff {ln : Line} {exptype : BitVec 4} {rmin rmax : Word} {stop : Bool} :
    (validate ln exptype rmin rmax stop).vOk = true ↔
      formatCheck ln exptype = true ∧ lengthCheck ln = true ∧ addressCheck ln rmin rmax = true ∧
        checksumCheck ln = true := by
  simp [validate, verdictOf_vOk, checkAll, and_assoc]

end verdicts

/-- Settles O26: collect mode's reasons are the mask of the four failures. -/
theorem collectModeReportsEveryFailure : Obligations.CollectModeReportsEveryFailure := by
  intro ln exptype rmin rmax
  obtain ⟨hfmt, hlen, hrng, hchk⟩ := mask_getLsbD (checkAll ln exptype rmin rmax)
  refine ⟨hfmt, hlen, hrng, hchk, beq_iff_eq, (reasonList_mask _).trans ?_⟩
  simp [checkAll, ← Bool.not_eq_true, ite_not]

/-- Settles O27: both modes' `v_ok` says that no check failed, and stop mode's list is cut from collect mode's. -/
theorem stopModeGivesTheFirstReason : Obligations.StopModeGivesTheFirstReason :=
  fun _ _ _ _ => ⟨(verdictOf_vOk true _).trans (verdictOf_vOk false _).symm, reasonList_stopReasons _⟩

/-- Settles O28: the four checks' conditions put together, with the type they share. -/
theorem validatorPassesExactly : Obligations.ValidatorPassesExactly := by
  intro ln exptype rmin rmax stop
  rw [validate_vOk_iff, formatCheck_iff, lengthCheck_iff, addressCheck_iff, checksumCheck_iff_wide]
  constructor
  · rintro ⟨⟨t, ht, hexp⟩, ⟨-, -, hcount⟩, ⟨t', ht', hfield⟩, hlong, heven, hhex, hck⟩
    obtain rfl : t = t' := Option.some.inj (ht.symm.trans ht')
    refine ⟨t, ht, hexp, heven, hlong, hhex, hcount, fun w hw => ?_, hck⟩
    obtain ⟨hl, hv⟩ := hfield w hw
    exact ⟨by omega, hv⟩
  · rintro ⟨t, ht, hexp, heven, hlong, hhex, hcount, hfield, hck⟩
    refine ⟨⟨t, ht, hexp⟩, ⟨by omega, heven, hcount⟩, ⟨t, ht, fun w hw => ?_⟩, hlong, heven, hhex, hck⟩
    obtain ⟨hl, hv⟩ := hfield w hw
    exact ⟨by omega, hv⟩

section wellFormed

variable {ln : Line}

theorem hexPairs_take {cs : Line} {bs : List Byte} (h : hexPairs cs = some bs) (k : Nat) :
    hexPairs (cs.take (2 * k)) = some (bs.take k) := by
  induction k generalizing cs bs with
  | zero => simp
  | succ k ih =>
    match cs, h with
    | [], h => simp_all
    | _ :: _ :: _, h =>
      obtain ⟨b, bs', hb, hbs', rfl⟩ := hexPairs_cons_some.1 h
      exact hexPairs_cons_some.2 ⟨b, _, hb, ih hbs', rfl⟩

/-- The pairs between the marker and the checksum, and the embedded checksum, are the pairs after the marker with the
last one set apart (R99, R100). -/
theorem hexPairs_concat_split {bs : List Byte} {ck : Byte} (h : hexPairs (ln.drop 2) = some (bs ++ [ck]))
    (hne : bs ≠ []) :
    hexPairs ((ln.drop 2).take (ln.length - 4)) = some bs ∧ embeddedChecksum ln = some ck := by
  have hlen := (shape_of_hexPairs_concat h).1
  have hpos := List.length_pos_iff.2 hne
  have hbefore : ln.length - 4 = 2 * bs.length := by omega
  have hlast : ln.length - 2 = 2 + 2 * bs.length := by omega
  have hdomain : 6 ≤ ln.length ∧ ln.length % 2 = 0 := by omega
  constructor
  · rw [hbefore, hexPairs_take h, List.take_left]
  · rw [embeddedChecksum, if_pos hdomain, hlast, ← pair_drop, ← hexPairs_getElem? h, List.getElem?_concat_length]

/-- ChecksumCheck in its domain, by the embedded checksum (R99, R135). -/
theorem checksumCheck_iff_embedded (hlong : 6 ≤ ln.length) (heven : ln.length % 2 = 0)
    (hhex : hexAfterMarker ln = true) : checksumCheck ln = true ↔
      ∃ bs, hexPairs ((ln.drop 2).take (ln.length - 4)) = some bs ∧ embeddedChecksum ln = some (calcChecksum bs) := by
  constructor
  · intro h
    obtain ⟨bs, ck, hbs, hne, rfl⟩ := checksumCheck_iff.1 h
    exact ⟨bs, hexPairs_concat_split hbs hne⟩
  · rintro ⟨bs, hbs, hck⟩
    have hsome : (hexPairs (ln.drop 2)).isSome = true := by
      rw [hexPairs_isSome, List.length_drop, Bool.and_eq_true, decide_eq_true_eq]
      exact ⟨by omega, hhex⟩
    obtain ⟨all, hall⟩ := Option.isSome_iff_exists.1 hsome
    have hlen := hexPairs_length hall
    rw [List.length_drop] at hlen
    obtain ⟨front, ck, rfl, hne⟩ := exists_concat_of_two_le (bs := all) (by omega)
    obtain ⟨hfront, hlast⟩ := hexPairs_concat_split hall hne
    obtain rfl : front = bs := Option.some.inj (hfront.symm.trans hbs)
    exact checksumCheck_iff.2 ⟨front, ck, hall, hne, Option.some.inj (hlast.symm.trans hck)⟩

/-- The definition of R100 clause by clause. -/
theorem wellFormedRecord_clauses : wellFormedRecord ln = true ↔ ∃ t, recType ln = some t ∧
    6 ≤ ln.length ∧ ln.length % 2 = 0 ∧ hexAfterMarker ln = true ∧
      (∃ bc, pair ln 2 = some bc ∧ bc.toNat = (ln.length - 4) / 2) ∧
      (∀ w, addrChars t = some w → 6 + w ≤ ln.length) ∧
      ∃ bs, hexPairs ((ln.drop 2).take (ln.length - 4)) = some bs ∧ embeddedChecksum ln = some (calcChecksum bs) := by
  cases ht : recType ln with
  | none => simp [wellFormedRecord, ht]
  | some t =>
    simp only [wellFormedRecord, ht, Bool.and_eq_true, decide_eq_true_eq, and_assoc, Option.some.injEq, exists_eq_left']
    refine and_congr_right' (and_congr_right' (and_congr_right' (and_congr ?_ (and_congr ?_ ?_))))
    · cases hbc : pair ln 2 <;> simp [byteCount, hbc]
    · cases addrChars t <;> simp
    · cases hexPairs ((ln.drop 2).take (ln.length - 4)) <;> cases embeddedChecksum ln <;> simp

/-- A line is well formed (R100) when its count and its checksum are right, it has a type, and the address field, where
the type has one, is whole. -/
theorem wellFormedRecord_iff : wellFormedRecord ln = true ↔
    lengthCheck ln = true ∧ checksumCheck ln = true ∧
      ∃ t, recType ln = some t ∧ ∀ w, addrChars t = some w → 6 + w ≤ ln.length := by
  rw [wellFormedRecord_clauses]
  constructor
  · rintro ⟨t, ht, hlong, heven, hhex, hcount, haddr, hck⟩
    have hpass := (checksumCheck_iff_embedded hlong heven hhex).2 hck
    exact ⟨lengthCheck_iff.2 ⟨by omega, heven, hcount⟩, hpass, t, ht, haddr⟩
  · rintro ⟨hlen, hck, t, ht, haddr⟩
    obtain ⟨hlong, heven, hhex⟩ := checksumCheck_domain hck
    obtain ⟨-, -, hcount⟩ := lengthCheck_iff.1 hlen
    exact ⟨t, ht, hlong, heven, hhex, hcount, haddr, (checksumCheck_iff_embedded hlong heven hhex).1 hck⟩

end wellFormed

/-- Settles O29: well-formedness is what the checks ask apart from the configuration; FormatCheck and AddressCheck
add the expected type and the window. -/
theorem okMeansWellFormedInTheWindow : Obligations.OkMeansWellFormedInTheWindow := by
  intro ln exptype rmin rmax stop
  rw [validate_vOk_iff, formatCheck_iff, addressCheck_iff_extractAddr, wellFormedRecord_iff]
  constructor
  · rintro ⟨⟨t, ht, hexp⟩, hlen, ⟨t', ht', hwindow⟩, hck⟩
    obtain rfl : t = t' := Option.some.inj (ht.symm.trans ht')
    refine ⟨⟨hlen, hck, t, ht, fun w hw => ?_⟩, fun t' ht' hd => ?_⟩
    · obtain ⟨a, ha, -⟩ := hwindow (isData_iff.2 ⟨w, hw⟩)
      have hl := (extractAddr_field ha ht hw).1
      omega
    · obtain rfl : t = t' := Option.some.inj (ht.symm.trans ht')
      exact ⟨hexp hd, hwindow hd⟩
  · rintro ⟨⟨hlen, hck, t, ht, -⟩, hdata⟩
    exact ⟨⟨t, ht, fun hd => (hdata t ht hd).1⟩, hlen, ⟨t, ht, fun hd => (hdata t ht hd).2⟩, hck⟩

end Sys2Proof.Machine

/-! The decoder unit (41_decoder.md). Each of its outcomes is traced to the test that gives it: what the type alone decides
(R173, R175), and what the length and the characters of a data record decide (R174, R175). The address and the data of a
decoded record are then set beside the extractor (R171), the validator (R178) and the buffer (R179). -/

namespace Sys2Proof.Machine

/-- Settles O30: the field is read as one number, which its digits bound (R171). -/
theorem extractedAddressIsTheField : Obligations.ExtractedAddressIsTheField := by
  refine fun ln a => ⟨fun h => ?_, ?_⟩
  · obtain ⟨t, w, ht, hw, hl, hfield⟩ := extractAddr_some h
    exact ⟨t, w, ht, addrChars_some.1 hw, hl, hfield, hexnum_lt hfield⟩
  · rintro ⟨t, w, ht, hw, hl, hfield, -⟩
    obtain ⟨b, hb, hba⟩ := extractAddr_of_field ht (addrChars_some.2 hw) hl hfield
    rwa [BitVec.eq_of_toNat_eq hba] at hb

section dataOutcomes

variable {ln : Line} {w : Nat}

/-- Some character after the marker is not hex. -/
theorem hexAfterMarker_eq_false_iff :
    hexAfterMarker ln = false ↔ ∃ i c, 2 ≤ i ∧ ln[i]? = some c ∧ hexval c = none := by
  rw [← Bool.not_eq_true, hexAfterMarker_iff]
  simp

/-- A data record's decoding gives neither of the errors that the type alone decides (R175). -/
theorem decodeData_ne_typeError (hw : w ≤ 8 ∧ w % 2 = 0 ∧ 4 ≤ w) :
    decodeData ln w ≠ .error .badMarker ∧ decodeData ln w ≠ .error .unsupportedType := by
  rcases decodeData_cases ln hw with ⟨-, hd⟩ | ⟨-, -, -, hd⟩ | ⟨-, -, -, _, _, -, -, hd⟩ <;> simp [hd]

theorem decodeData_badLength_iff (hw : w ≤ 8 ∧ w % 2 = 0 ∧ 4 ≤ w) :
    decodeData ln w = .error .badLength ↔ ln.length < 4 + w + 2 ∨ ln.length % 2 = 1 := by
  rcases decodeData_cases ln hw with ⟨hbad, hd⟩ | ⟨hl, heven, -, hd⟩ | ⟨hl, heven, -, _, _, -, -, hd⟩
  · simp [hd, hbad]
  · simp [hd, heven, Nat.not_lt.2 hl]
  · simp [hd, heven, Nat.not_lt.2 hl]

theorem decodeData_invalidHexDigit_iff (hw : w ≤ 8 ∧ w % 2 = 0 ∧ 4 ≤ w) :
    decodeData ln w = .error .invalidHexDigit ↔
      4 + w + 2 ≤ ln.length ∧ ln.length % 2 = 0 ∧ hexAfterMarker ln = false := by
  rcases decodeData_cases ln hw with ⟨hbad, hd⟩ | ⟨hl, heven, hhex, hd⟩ | ⟨-, -, hhex, _, _, -, -, hd⟩
  · simp only [hd, DecodeOutcome.error.injEq, reduceCtorEq, false_iff]
    omega
  · simp [hd, hl, heven, hhex]
  · simp [hd, hhex]

end dataOutcomes

section outcomes

variable {ln : Line}

theorem decodeRecord_badMarker_iff : decodeRecord ln = .error .badMarker ↔ recType ln = none := by
  rcases decodeRecord_cases ln with ⟨ht, hd⟩ | ⟨_, ht, -, -, hd⟩ | ⟨_, ht, -, -, hd⟩ | ⟨_, _, ht, hw, hd⟩
  · simp [ht, hd]
  · simp [ht, hd]
  · simp [ht, hd]
  · simp [ht, hd, (decodeData_ne_typeError (addrChars_le hw)).1]

theorem decodeRecord_unsupportedType_iff :
    decodeRecord ln = .error .unsupportedType ↔ recType ln = some 4#4 ∨ recType ln = some 6#4 := by
  rcases decodeRecord_cases ln with ⟨ht, hd⟩ | ⟨_, ht, -, h46, hd⟩ | ⟨_, ht, -, h46, hd⟩ | ⟨t, w, ht, hw, hd⟩
  · simp [ht, hd]
  · simpa [ht, hd] using h46
  · simpa [ht, hd] using h46
  · have h46 : ¬(t = 4#4 ∨ t = 6#4) := by
      rintro (rfl | rfl) <;> cases hw
    simpa [ht, hd, (decodeData_ne_typeError (addrChars_le hw)).2] using h46

theorem decodeRecord_skip_iff : decodeRecord ln = .skip ↔
    ∃ t, recType ln = some t ∧ addrChars t = none ∧ ¬(t = 4#4 ∨ t = 6#4) := by
  rcases decodeRecord_cases ln with ⟨ht, hd⟩ | ⟨_, ht, -, h46, hd⟩ | ⟨_, ht, hw, h46, hd⟩ | ⟨_, _, ht, hw, hd⟩
  · simp [ht, hd]
  · simp [ht, hd, h46, -not_or]
  · simp [ht, hd, hw, h46, -not_or]
  · simp [ht, hd, hw, decodeData_ne_skip ln (addrChars_le hw)]

theorem decodeRecord_of_data {t : BitVec 4} {w : Nat} (ht : recType ln = some t) (hw : addrChars t = some w) :
    decodeRecord ln = decodeData ln w := by
  simp [decodeRecord, ht, hw]

/-- An outcome that the type alone does not decide is the outcome of a data record's decoding (R174). -/
theorem decodeRecord_eq_iff_decodeData {o : DecodeOutcome} (hmarker : .error .badMarker ≠ o)
    (htype : .error .unsupportedType ≠ o) (hskip : .skip ≠ o) : decodeRecord ln = o ↔
      ∃ t w, recType ln = some t ∧ addrChars t = some w ∧ decodeData ln w = o := by
  constructor
  · intro h
    rcases decodeRecord_cases ln with ⟨-, hd⟩ | ⟨_, -, -, -, hd⟩ | ⟨_, -, -, -, hd⟩ | ⟨t, w, ht, hw, hd⟩
    · exact absurd (hd.symm.trans h) hmarker
    · exact absurd (hd.symm.trans h) htype
    · exact absurd (hd.symm.trans h) hskip
    · exact ⟨t, w, ht, hw, hd.symm.trans h⟩
  · rintro ⟨t, w, ht, hw, h⟩
    exact (decodeRecord_of_data ht hw).trans h

theorem decodeRecord_badLength_iff : decodeRecord ln = .error .badLength ↔
    ∃ t w, recType ln = some t ∧ addrChars t = some w ∧ (ln.length < 4 + w + 2 ∨ ln.length % 2 = 1) := by
  rw [decodeRecord_eq_iff_decodeData (o := .error .badLength) nofun nofun nofun]
  exact exists₂_congr fun _ _ => and_congr_right' (and_congr_right fun hw => decodeData_badLength_iff (addrChars_le hw))

theorem decodeRecord_invalidHexDigit_iff : decodeRecord ln = .error .invalidHexDigit ↔
    ∃ t w, recType ln = some t ∧ addrChars t = some w ∧ 4 + w + 2 ≤ ln.length ∧ ln.length % 2 = 0 ∧
      hexAfterMarker ln = false := by
  rw [decodeRecord_eq_iff_decodeData (o := .error .invalidHexDigit) nofun nofun nofun]
  exact exists₂_congr fun _ _ =>
    and_congr_right' (and_congr_right fun hw => decodeData_invalidHexDigit_iff (addrChars_le hw))

end outcomes

/-- Settles O33: the four reasons, with the hex test of the last read by index. -/
theorem decoderErrorsInTheirOrder : Obligations.DecoderErrorsInTheirOrder := by
  intro ln
  simp only [← hexAfterMarker_eq_false_iff]
  exact ⟨decodeRecord_badMarker_iff, decodeRecord_unsupportedType_iff, decodeRecord_badLength_iff,
    decodeRecord_invalidHexDigit_iff⟩

/-- The types that are neither data types nor reserved (R13, R108), as numbers. -/
theorem skippedType_iff (t : BitVec 4) : (addrChars t = none ∧ ¬(t = 4#4 ∨ t = 6#4)) ↔
    t.toNat = 0 ∨ t.toNat = 5 ∨ 7 ≤ t.toNat := by
  revert t; decide

/-- Settles O34: the type is the digit of the second character, and the skipped types are 0, 5, 7, 8 and 9. -/
theorem skipIsDecidedByTheMarker : Obligations.SkipIsDecidedByTheMarker := by
  intro ln
  rw [decodeRecord_skip_iff]
  constructor
  · rintro ⟨t, ht, hskip⟩
    obtain ⟨d, rest, rfl, hlo, hhi, htd⟩ := recType_some.1 ht
    have hnum := (skippedType_iff t).1 hskip
    exact ⟨d, rest, rfl, by bv_omega⟩
  · rintro ⟨d, rest, rfl, hd⟩
    rcases hd with rfl | rfl | rfl | rfl | rfl
    · exact ⟨0#4, by simp [recType_cons], by decide⟩
    · exact ⟨5#4, by simp [recType_cons], by decide⟩
    · exact ⟨7#4, by simp [recType_cons], by decide⟩
    · exact ⟨8#4, by simp [recType_cons], by decide⟩
    · exact ⟨9#4, by simp [recType_cons], by decide⟩

section validated

variable {ln : Line} {t exptype : BitVec 4} {w : Nat} {rmin rmax : Word} {stop : Bool}

/-- A data record that passes the four checks has the shape the decoder asks for, and its count is of all the bytes after
it: the address, the data and the checksum (R178 b). -/
theorem decodeRecord_of_vOk (ht : recType ln = some t) (hw : addrChars t = some w)
    (h : (validate ln exptype rmin rmax stop).vOk = true) :
    ∃ a ds bc, decodeRecord ln = .decoded a ds ∧ rmin.toNat ≤ a.toNat ∧ a.toNat ≤ rmax.toNat ∧
      pair ln 2 = some bc ∧ ds.length + w / 2 + 1 = bc.toNat := by
  obtain ⟨-, hlen, hrng, hchk⟩ := validate_vOk_iff.1 h
  obtain ⟨-, heven, bc, hbc, hcount⟩ := lengthCheck_iff.1 hlen
  obtain ⟨-, -, hhex⟩ := checksumCheck_domain hchk
  obtain ⟨t', ht', hwindow⟩ := addressCheck_iff_extractAddr.1 hrng
  obtain rfl : t = t' := Option.some.inj (ht.symm.trans ht')
  obtain ⟨a, ha, hlo, hhi⟩ := hwindow (isData_iff.2 ⟨w, hw⟩)
  have hl := (extractAddr_field ha ht hw).1
  obtain ⟨-, ds, -, hds, -⟩ := decodeData_good (addrChars_le hw) hl heven hhex
  have hdata := dataField_length hds
  have hweven := (addrChars_le hw).2.1
  exact ⟨a, ds, bc, decodeRecord_of_fields ht hw heven hhex ha hds, hlo, hhi, hbc, by omega⟩

end validated

/-- Settles O35. For (c), `S1000000FC` decodes to address 0 without data, but its count is not 3, its checksum is not
`FF`, and the configuration expects an `S2` from address 1 on. -/
theorem validatedDataRecordsDecode : Obligations.ValidatedDataRecordsDecode := by
  refine ⟨fun _ _ _ h => (decodeRecord_decoded h).1, fun _ _ _ _ _ _ _ ht hw h => decodeRecord_of_vOk ht hw h, ?_⟩
  exact ⟨[0x53, 0x31, 0x30, 0x30, 0x30, 0x30, 0x30, 0x30, 0x46, 0x43], 0#32, [], 2#4, 1#32, 1#32, by decide, by decide⟩

/-- A byte count is at most 255 and counts the address, two bytes at least, and the checksum (R179). -/
theorem decoded_length_le_of_lengthCheck {ln : Line} {a : Word} {ds : List Byte} (hlen : lengthCheck ln = true)
    (h : decodeRecord ln = .decoded a ds) : ds.length ≤ 252 := by
  obtain ⟨-, t, w, -, hw, hds⟩ := decodeRecord_decoded h
  obtain ⟨-, heven, bc, -, hcount⟩ := lengthCheck_iff.1 hlen
  have hdata := dataField_length hds
  have hw4 := (addrChars_le hw).2.2
  have hbc := bc.isLt
  omega

/-- A record composed of an address its field can hold and data decodes to them, whatever the count's byte keeps of their
number (R103, R174). -/
theorem decodeRecord_composed {i : Instr} {n : Nat} {a : Word} {ds : List Byte}
    (hbody : i.body = composeBody (bigEndian n a ++ ds)) (ha : a.toNat < 256 ^ n)
    (hwidth : addrChars ((i.typeDigit - 0x30#8).setWidth 4) = some (2 * n)) :
    decodeRecord (encode i) = .decoded a ds := by
  have hlen := composed_length hbody
  exact decodeRecord_of_fields (recType_encode i) hwidth (by omega) (composed_hexAfterMarker hbody)
    (composed_extractAddr hbody ha hwidth) (composed_dataField hbody)

/-- Settles O36: `DMAX` bytes are reached by the `S1` record composed of address 0 and `DMAX` zeros. -/
theorem dataFitsTheBuffer : Obligations.DataFitsTheBuffer := by
  refine ⟨fun ln a ds h => ⟨fun hfit => decoded_length_le_dmax hfit h, fun hlen => decoded_length_le_of_lengthCheck hlen h⟩,
    composeBody (bigEndian 2 0#32 ++ List.replicate Config.DMAX 0#8), 0#32, List.replicate Config.DMAX 0#8, ?_, ?_, ?_⟩
  · have hlmax := Config.le_lmax
    have heven := Config.lmax_even
    rw [composed_length rfl, List.length_append, bigEndian_length, List.length_replicate, Config.DMAX]
    omega
  · exact decodeRecord_composed (n := 2) rfl (by decide) rfl
  · exact List.length_replicate

end Sys2Proof.Machine

/-! The data records (42_data_records.md R200). A data record has a type that `isData` accepts, and so an address width; on
such a line each of the four failures is the rule's own test, and the decoder's outcome is `decode_data`. -/

namespace Sys2Proof.Machine

/-- The four failures of a data record of type `t` as the rules write them (R132 to R135, R200). `checkAll_of_data` ties
them to the validator's own. -/
def dataFailures (ln : Line) (t exptype : BitVec 4) (rmin rmax : Word) : CheckFailures where
  fmt := t != exptype
  len := !lengthCheck ln
  rng := match extractAddr ln with
    | none => true
    | some a => !(decide (rmin.toNat ≤ a.toNat) && decide (a.toNat ≤ rmax.toNat))
  chk := !checksumCheck ln

section failures

variable {ln : Line} {t exptype : BitVec 4} {rmin rmax : Word}

/-- On a data record FormatCheck fails exactly when the type is not the expected one (R132). -/
theorem formatCheck_of_data (ht : recType ln = some t) (hd : isData t = true) :
    formatCheck ln exptype = !(t != exptype) := by
  simp [formatCheck, ht, hd]

/-- On a data record AddressCheck asks for an address, and for the address to lie in the window (R134). -/
theorem addressCheck_of_data (ht : recType ln = some t) (hd : isData t = true) :
    addressCheck ln rmin rmax =
      (extractAddr ln).any fun a => decide (rmin.toNat ≤ a.toNat) && decide (a.toNat ≤ rmax.toNat) := by
  cases ha : extractAddr ln <;> simp [addressCheck, ht, hd, ha, BitVec.le_def]

theorem checkAll_of_data (ht : recType ln = some t) (hd : isData t = true) :
    checkAll ln exptype rmin rmax = dataFailures ln t exptype rmin rmax := by
  rw [checkAll, formatCheck_of_data ht hd, addressCheck_of_data ht hd, Bool.not_not, dataFailures]
  cases extractAddr ln <;> rfl

end failures

section answers

variable {i : Instr} {s : State}

/-- A record that fits is answered by both units, and its end changes only `RAW` and `RSP` (R254, R255). -/
theorem exec_of_fits (hfit : i.body.length + 2 ≤ Config.LMAX) : exec i s = .next { s with
    raw := [], rsp := some (processedResponse (encode i) s.ctrl s.rmin s.rmax s.ridx) } := by
  have hresponse := lineResponse_of_fits (ln := encode i) s hfit
  rw [exec_eq, State.respond, hresponse, State.report]

/-- A data record that fits is answered with the verdict of its four failures, the outcome of `decode_data` at its type's
address width, and the extracted address (R200, R255). -/
theorem exec_of_data {t : BitVec 4} {w : Nat} (hfit : i.body.length + 2 ≤ Config.LMAX)
    (ht : recType (encode i) = some t) (hw : addrChars t = some w) :
    let v := verdictOf (stopBit s.ctrl) (dataFailures (encode i) t (expType s.ctrl) s.rmin s.rmax)
    exec i s = .next { s with
      raw := []
      rsp := some ⟨s.ridx, .processed v.vOk v.vReasons (decodeData (encode i) w) (extractAddr (encode i))⟩ } := by
  have hd : isData t = true := isData_iff.2 ⟨w, hw⟩
  rw [exec_of_fits hfit, processedResponse, validate, checkAll_of_data ht hd, decodeRecord_of_data ht hw]

end answers

/-- Settles O14: each of the three types has its number and its address width, and the rest is the same for all. -/
theorem dataRecordsAnswerTheirChecks : Obligations.DataRecordsAnswerTheirChecks := by
  intro body s hfit p hp
  simp only [List.mem_cons, List.not_mem_nil, or_false] at hp
  rcases hp with rfl | rfl | rfl <;> exact exec_of_data hfit (by simp [recType_encode, Instr.typeDigit]) rfl

end Sys2Proof.Machine

/-! Lines whose type has no address width, because it is a non-data type (43_nondata_records.md R220) or because the line is
no record and has no type at all (R228, R229). On such a line FormatCheck and AddressCheck see only whether there is a type,
no address is extracted, and the configuration shows only in how `STOP` reports the reasons. -/

namespace Sys2Proof.Machine

/-- The four failures of a line without an address width: FormatCheck and AddressCheck fail exactly where there is no type.
`checkAll_of_no_width` ties them to the validator's own. -/
def widthlessFailures (ln : Line) : CheckFailures where
  fmt := (recType ln).isNone
  len := !lengthCheck ln
  rng := (recType ln).isNone
  chk := !checksumCheck ln

section units

variable {ln : Line} (hw : (recType ln).bind addrChars = none)

include hw

/-- A line's type, where its address has no width, is a non-data type (R13). -/
theorem isData_of_no_width {t : BitVec 4} (ht : recType ln = some t) : isData t = false := by
  simpa [ht, ← addrChars_isSome] using hw

/-- Of the type FormatCheck and AddressCheck ask for here only that there is one (R132, R134). -/
theorem checkAll_of_no_width (exptype : BitVec 4) (rmin rmax : Word) :
    checkAll ln exptype rmin rmax = widthlessFailures ln := by
  cases ht : recType ln with
  | none => simp [checkAll, widthlessFailures, formatCheck, addressCheck, ht]
  | some t => simp [checkAll, widthlessFailures, formatCheck, addressCheck, ht, isData_of_no_width hw ht]

theorem extractAddr_of_no_width : extractAddr ln = none := by
  simp [extractAddr, hw]

/-- Neither `EXPTYPE` nor the window is in the response (R220, R228, R255). -/
theorem processedResponse_of_no_width (ctrl rmin rmax ridx : Word) :
    let v := verdictOf (stopBit ctrl) (widthlessFailures ln)
    processedResponse ln ctrl rmin rmax ridx = ⟨ridx, .processed v.vOk v.vReasons (decodeRecord ln) none⟩ := by
  rw [processedResponse, validate, checkAll_of_no_width hw, extractAddr_of_no_width hw]

variable {s s' : State} (hridx : s.ridx = s'.ridx)

include hridx

/-- Two blocks of one record index and one mode answer the line alike, an overlong one too (R220). -/
theorem lineResponse_congr_of_no_width (hstop : stopBit s.ctrl = stopBit s'.ctrl) :
    lineResponse ln s = lineResponse ln s' := by
  simp only [lineResponse, processedResponse_of_no_width hw, hridx, hstop]

/-- The mode does not show in `v_ok` either (R141, R220). -/
theorem lineResponse_vOk_of_no_width : (lineResponse ln s).vOk = (lineResponse ln s').vOk := by
  simp only [lineResponse, processedResponse_of_no_width hw, hridx, verdictOf_vOk]
  split <;> rfl

end units

section nonData

/-- The decoder's answer to a non-data type (R108, R173). -/
theorem decodeRecord_of_nonData {ln : Line} {t : BitVec 4} (ht : recType ln = some t) (hw : addrChars t = none) :
    decodeRecord ln = if t = 4#4 ∨ t = 6#4 then .error .unsupportedType else .skip := by
  simp only [decodeRecord, ht, hw]

/-- A non-data record that fits is answered with what LengthCheck and ChecksumCheck say of it, the decoder's word on its
type, and no address (R220, R255). -/
theorem exec_of_nonData {i : Instr} {s : State} {t : BitVec 4} {o : DecodeOutcome}
    (hfit : i.body.length + 2 ≤ Config.LMAX) (ht : recType (encode i) = some t) (hw : addrChars t = none)
    (ho : (if t = 4#4 ∨ t = 6#4 then .error .unsupportedType else .skip) = o) :
    let v := verdictOf (stopBit s.ctrl)
      { fmt := false, len := !lengthCheck (encode i), rng := false, chk := !checksumCheck (encode i) }
    exec i s = .next { s with raw := [], rsp := some ⟨s.ridx, .processed v.vOk v.vReasons o none⟩ } := by
  have hnone : (recType (encode i)).bind addrChars = none := by rw [ht, Option.bind_some, hw]
  rw [exec_of_fits hfit, processedResponse_of_no_width hnone, decodeRecord_of_nonData ht hw, ho, widthlessFailures, ht]
  rfl

/-- Every instruction but `S1`, `S2` and `S3` has a type without an address width (R13). -/
theorem no_width_of_nonData {i : Instr} (h1 : ∀ b, i ≠ .s1 b) (h2 : ∀ b, i ≠ .s2 b) (h3 : ∀ b, i ≠ .s3 b) :
    (recType (encode i)).bind addrChars = none := by
  rw [recType_encode, Option.bind_some]
  cases i with
  | s1 b => exact absurd rfl (h1 b)
  | s2 b => exact absurd rfl (h2 b)
  | s3 b => exact absurd rfl (h3 b)
  | _ => simp [Instr.typeDigit, addrChars]

end nonData

/-- Settles O15: none of the seven types has an address width, and 4 and 6 are the reserved ones. -/
theorem nonDataRecordsAnswerTheirChecks : Obligations.NonDataRecordsAnswerTheirChecks := by
  intro body s hfit p hp
  simp only [List.mem_cons, List.not_mem_nil, or_false] at hp
  rcases hp with rfl | rfl | rfl | rfl | rfl | rfl | rfl <;>
    exact exec_of_nonData hfit (recType_encode _) (by simp [Instr.typeDigit, addrChars]) (by simp [Instr.typeDigit])

/-- Settles O19: the response is the one for the record's line, whose type has no address width. -/
theorem nonDataVerdictIgnoresTheConfiguration : Obligations.NonDataVerdictIgnoresTheConfiguration := by
  intro i s s' t t' hridx h1 h2 h3 ht ht'
  rw [exec_eq] at ht ht'
  injection ht with ht
  injection ht' with ht'
  subst ht ht'
  have hw := no_width_of_nonData h1 h2 h3
  simp only [State.respond_rsp, Option.bind_some]
  exact ⟨fun hstop => congrArg some (lineResponse_congr_of_no_width hw hridx hstop),
    lineResponse_vOk_of_no_width hw hridx⟩

section noRecord

/-- A line has no type unless it begins with `S` and a digit (R94). -/
theorem recType_eq_none {ln : Line} (h : ∀ c d rest, ln = c :: d :: rest →
    ¬(c = 0x53#8 ∧ 0x30 ≤ d.toNat ∧ d.toNat ≤ 0x39)) : recType ln = none := by
  rw [Option.eq_none_iff_forall_ne_some]
  intro t ht
  obtain ⟨d, rest, hln, hlo, hhi, -⟩ := recType_some.1 ht
  exact h _ d rest hln ⟨rfl, hlo, hhi⟩

/-- Where FormatCheck fails the verdict is a failure, and stop mode reports it alone (R137, R138). -/
theorem verdictOf_of_fmt (stop : Bool) {f : CheckFailures} (hf : f.fmt = true) :
    verdictOf stop f = ⟨false, if stop then 0b0001#4 else f.mask⟩ := by
  have hok : (verdictOf stop f).vOk = false := by simp [verdictOf_vOk, hf]
  have hreasons : (verdictOf stop f).vReasons = if stop then 0b0001#4 else f.mask := by
    simp [verdictOf, stopReasons, collectReasons, hf]
  rw [← hok, ← hreasons]

/-- The end of record on a line without a type, in both modes (R228). -/
theorem perform_endRecord_of_no_type {s : State} (hfit : (strip s.raw).length ≤ Config.LMAX)
    (ht : recType (strip s.raw) = none) : perform .endRecord s = .next { s with
      raw := []
      rsp := some ⟨s.ridx, .processed false
        (if stopBit s.ctrl then 0b0001#4 else CheckFailures.mask
          { fmt := true, len := !lengthCheck (strip s.raw), rng := true, chk := !checksumCheck (strip s.raw) })
        (.error .badMarker) none⟩ } := by
  have hw : (recType (strip s.raw)).bind addrChars = none := by rw [ht, Option.bind_none]
  have hf : widthlessFailures (strip s.raw) =
      { fmt := true, len := !lengthCheck (strip s.raw), rng := true, chk := !checksumCheck (strip s.raw) } := by
    rw [widthlessFailures, ht, Option.isNone_none]
  rw [perform_eq, after, State.respond, lineResponse_of_fits s hfit, processedResponse_of_no_width hw,
    decodeRecord_badMarker_iff.2 ht, hf, verdictOf_of_fmt _ rfl, State.report]

end noRecord

/-- Settles O17: none of these lines has a type, and the empty line is too short for either of the other checks. -/
theorem lineThatIsNoRecord : Obligations.LineThatIsNoRecord := by
  refine fun s hfit => ⟨fun hbad => perform_endRecord_of_no_type hfit (recType_eq_none fun c d rest hln => ?_),
    fun hterm => ?_⟩
  · rcases hbad with hlone | ⟨c', d', rest', hln', hmarker⟩
    · simp [hln] at hlone
    · rw [hln, List.cons.injEq, List.cons.injEq] at hln'
      obtain ⟨rfl, rfl, -⟩ := hln'
      exact hmarker
  · have hempty : strip s.raw = [] := strip_terminators fun c hc => (isTerminator_iff c).2 (hterm c hc)
    have hanswer := perform_endRecord_of_no_type hfit (by rw [hempty]; rfl)
    rw [hempty] at hanswer
    exact hanswer

end Sys2Proof.Machine

/-! The host's events (44_host_interface.md). What a step does with the next event, what each event does to the block, the
refusal of an overlong line; then two runs over scripts of events: the source's `validate`, and one clock cycle. -/

namespace Sys2Proof.Machine

section configuration

variable (s : State)

theorem State.cfgRead_ctrl : s.cfgRead 0#2 = s.ctrl &&& ctrlMask := rfl
theorem State.cfgRead_rmin : s.cfgRead 1#2 = s.rmin := rfl
theorem State.cfgRead_rmax : s.cfgRead 2#2 = s.rmax := rfl
theorem State.cfgRead_reserved : s.cfgRead 3#2 = 0#32 := rfl

theorem perform_cfgWrite (n : BitVec 2) (v : Word) : perform (.cfgWrite n v) s = .next (s.cfgWrite n v) :=
  perform_eq (.cfgWrite n v) s

theorem perform_cfgRead (n : BitVec 2) :
    perform (.cfgRead n) s = .next { s with replies := s.replies ++ [.config (s.cfgRead n)] } :=
  perform_eq (.cfgRead n) s

theorem enabled_cfgWrite (n : BitVec 2) (v : Word) : enabled (.cfgWrite n v) s = true := rfl

theorem enabled_cfgRead (n : BitVec 2) : enabled (.cfgRead n) s = true := rfl

end configuration

/-- Settles O3: `State.cfgWrite` at each of the four register numbers. -/
theorem configWriteStoresUnderTheMask : Obligations.ConfigWriteStoresUnderTheMask := by
  refine fun s v => ⟨?_, ?_, ?_, ?_, fun n => enabled_cfgWrite s n v⟩
  · rw [perform_cfgWrite, State.cfgWrite_ctrl, ctrlMask]
  · rw [perform_cfgWrite, State.cfgWrite_rmin]
  · rw [perform_cfgWrite, State.cfgWrite_rmax]
  · rw [perform_cfgWrite, State.cfgWrite_reserved]

/-- Settles O4: `State.cfgRead` at each of the four register numbers. -/
theorem configReadReturnsTheRegister : Obligations.ConfigReadReturnsTheRegister := by
  refine fun s => ⟨?_, ?_, ?_, ?_, enabled_cfgRead s⟩
  · rw [perform_cfgRead, State.cfgRead_ctrl, ctrlMask]
  · rw [perform_cfgRead, State.cfgRead_rmin]
  · rw [perform_cfgRead, State.cfgRead_rmax]
  · rw [perform_cfgRead, State.cfgRead_reserved]

section channels

variable {s : State}

@[simp] theorem enabled_pushChar (c : Byte) : enabled (.pushChar c) s = !s.rspValid := rfl
@[simp] theorem enabled_endRecord : enabled .endRecord s = !s.rspValid := rfl
@[simp] theorem enabled_readData (k : Nat) : enabled (.readData k) s = s.rspValid := rfl
@[simp] theorem enabled_takeResponse : enabled .takeResponse s = s.rspValid := rfl

/-- After a reset, or once the response is taken, none waits. -/
theorem rspValid_after_lift {e : Event} (he : e = .takeResponse ∨ e = .reset) : (after e s).rspValid = false := by
  rcases he with rfl | rfl
  · exact (State.rspValid_eq_false_iff _).2 (onTakeResponse_rsp s)
  · exact s.rspValid_resetBlock

/-- A response that waits is handed over by `TakeResponse` (R257). -/
theorem onTakeResponse_of_response {r : Response} (hr : s.rsp = some r) :
    onTakeResponse s = (s.reply (.response r)).retire := by
  rw [onTakeResponse, hr]

/-- A response without decoded data gives the buffer no bytes (R30, R32). -/
theorem Response.dData_of_not_decoded {r : Response} (h : r.dKind ≠ some .decoded) : r.dData = none := by
  unfold Response.dKind at h
  unfold Response.dData
  split
  · rename_i a ds ho
    simp [ho] at h
  · rfl

/-- `DBUF` is the decoded data of the response that waits (R32). -/
theorem State.dbuf_of_response {r : Response} (hr : s.rsp = some r) (k : Nat) :
    s.dbuf k = r.dData.bind fun ds => ds[k]? := by
  rw [State.dbuf, hr]

/-- The response for a line, with the overrun test as R254 writes it. -/
theorem lineResponse_eq (ln : Line) (s : State) : lineResponse ln s =
    if Config.LMAX < ln.length then overrunResponse s.ridx else processedResponse ln s.ctrl s.rmin s.rmax s.ridx := by
  split
  · exact lineResponse_of_overlong s ‹_›
  · exact lineResponse_of_fits s (Nat.not_lt.1 ‹_›)

end channels

/-- Settles O5: `State.pushRaw` appends the character. -/
theorem pushedCharacterJoinsTheLine : Obligations.PushedCharacterJoinsTheLine :=
  fun s c => perform_eq (.pushChar c) s

/-- Settles O6: the end of record answers the stripped line, and the record channel is open while no response waits. -/
theorem endRecordHoldsTheResponse : Obligations.EndRecordHoldsTheResponse := by
  refine fun s => ⟨?_, fun hnone => ?_⟩
  · rw [perform_eq, after, State.respond, lineResponse_eq, State.report, overrunResponse]
  · rw [enabled_endRecord, hnone, Bool.not_false]

/-- Settles O7: the response is replied and then retired. -/
theorem takingHandsOverTheResponse : Obligations.TakingHandsOverTheResponse := by
  intro s r hr
  rw [perform_eq, after, onTakeResponse_of_response hr, State.reply, State.retire]

/-- Settles O8: the byte is looked up in the response's decoded data, which a response of another kind does not have. -/
theorem readDataReturnsTheBuffer : Obligations.ReadDataReturnsTheBuffer := by
  refine fun s k => ⟨fun i ok v a ds x hr => ?_, fun r hr hkind => ?_⟩
  · rw [perform_eq, after, State.dbuf_of_response hr, State.reply]
    rfl
  · rw [perform_eq, after, State.dbuf_of_response hr, Response.dData_of_not_decoded hkind, State.reply, Option.bind_none]

/-- Settles O9: each channel is open by whether a response waits; taking it and a reset leave none, and an end of record
leaves one. -/
theorem channelsHoldAndAreLifted : Obligations.ChannelsHoldAndAreLifted := by
  refine fun s c k => ⟨fun hvalid => ⟨by simp [hvalid], by simp [hvalid], fun e t he ht => ?_⟩,
    fun hnone => ⟨by simp [hnone], by simp [hnone], fun t ht => ?_⟩⟩
  · rw [perform_eq, Host.Outcome.next.injEq] at ht
    subst ht
    simp [rspValid_after_lift he]
  · rw [perform_eq, Host.Outcome.next.injEq] at ht
    subst ht
    simp [after]

/-- Settles O10: an event that is enabled is performed, whatever the rest of the script. -/
theorem stepPerformsTheNextEnabledEvent : Obligations.StepPerformsTheNextEnabledEvent :=
  fun _ _ _ => step_of_enabled

/-- Without an event to come the step answers the same state (R251). -/
theorem step_of_no_event {s : State} (h : s.events = []) : step s = .next s := by
  rw [step, nextEvent, h]

/-- Settles O11: no event to come, or one that is held. -/
theorem blockNeverActsOnItsOwn : Obligations.BlockNeverActsOnItsOwn :=
  fun _ => ⟨step_of_no_event, fun _ _ => step_of_held⟩

/-- Settles O12: the end of record is enabled, and both it and the meaning of the decoded record answer the stripped
line. -/
theorem stepRunsTheDecodedRecord : Obligations.StepRunsTheDecodedRecord := by
  intro s i rest hev hnone hdecode
  have hline : encode i = strip s.raw := classify_ok hdecode
  have henabled : enabled .endRecord s = true := by rw [enabled_endRecord, hnone, Bool.not_false]
  rw [step_of_enabled hev henabled, perform_eq, exec_eq, hline, after]

/-- Settles O13: of the three cases of the step only an event that happens changes the script. -/
theorem everyStepCompletes : Obligations.EveryStepCompletes := by
  intro s
  rcases step_cases s with ⟨hev, hstep⟩ | ⟨e, rest, hev, he, hstep⟩ | ⟨e, rest, hev, he, hstep⟩
  · exact ⟨s, hstep, by rw [hev]⟩
  · exact ⟨s, hstep, by simp [hev, he]⟩
  · exact ⟨after e { s with events := rest }, hstep.trans (perform_eq _ _), by simp [hev, he, after_events]⟩

section overlong

variable {ln : Line}

/-- LengthCheck could not have passed an overlong line: its byte count reaches no further than 514 characters (R133). -/
theorem lengthCheck_of_overlong (h : Config.LMAX < ln.length) : lengthCheck ln = false :=
  (lengthCheckPassesExactly ln).2 (Config.le_lmax.trans_lt h)

/-- The end of record on an overlong line holds the overrun response and empties `RAW` (R254, R256). -/
theorem State.respond_of_overlong (s : State) (h : Config.LMAX < ln.length) :
    s.respond ln = { s with raw := [], rsp := some (overrunResponse s.ridx) } := by
  rw [State.respond, lineResponse_of_overlong s h, State.report]

end overlong

/-- Settles O16: a record's line and any other stripped line are answered alike, by the overrun response, which has no
field but the index. -/
theorem overlongLineIsRefusedWhole : Obligations.OverlongLineIsRefusedWhole := by
  intro s refusedWhole
  have hrefused (ln : Line) (hlong : Config.LMAX < ln.length) : refusedWhole ln (.next (s.respond ln)) :=
    ⟨lengthCheck_of_overlong hlong, overrunResponse s.ridx, by rw [s.respond_of_overlong hlong],
      rfl, rfl, rfl, rfl, rfl, rfl, rfl, rfl, rfl, rfl⟩
  refine ⟨fun i hlong => ?_, fun hlong => ?_⟩
  · rw [exec_eq]
    exact hrefused (encode i) hlong
  · rw [perform_eq]
    exact hrefused (strip s.raw) hlong

section validating

/-- The word that the source's `validate` writes to `CTRL` (R24, R265). -/
def controlWord (exptype : BitVec 4) (stop : Bool) : Word :=
  exptype.setWidth 32 ||| (BitVec.ofBool stop).setWidth 32 <<< 4

variable (exptype : BitVec 4) (stop : Bool)

theorem expType_controlWord : expType (controlWord exptype stop &&& ctrlMask) = exptype := by
  revert exptype stop; decide

theorem stopBit_controlWord : stopBit (controlWord exptype stop &&& ctrlMask) = stop := by
  revert exptype stop; decide

/-- The state after the three configuration writes of `validate`, with the host's events that are left. -/
def State.configured (s : State) (lo hi : Word) (rest : List Event) : State :=
  { s with ctrl := controlWord exptype stop &&& ctrlMask, rmin := lo, rmax := hi, events := rest }

/-- Configuration writes are always enabled, so the three of `validate` happen one after another (R252). -/
theorem run_validateEvents {s : State} (raw : Line) (lo hi : Word) (hraw : s.raw = []) (hrsp : s.rsp = none)
    (hev : s.events = validateEvents raw exptype lo hi stop) :
    Sys2Proof.core.run s.events.length s =
      .next ((s.configured exptype stop lo hi (presentLine raw)).answered [raw] []) := by
  have hline : (s.configured exptype stop lo hi (presentLine raw)).events = presentLine raw ++ [] :=
    (List.append_nil _).symm
  have hlength : s.events.length = (presentLine raw).length + 1 + 1 + 1 := by rw [hev]; rfl
  rw [hlength, run_of_enabled hev (enabled_cfgWrite ..), run_of_enabled rfl (enabled_cfgWrite ..),
    run_of_enabled rfl (enabled_cfgWrite ..)]
  exact run_presentLine raw hraw hrsp hline

end validating

/-- Settles O51: the answer to the one line is the processed response under the configuration just written, whose `EXPTYPE`
and `STOP` are the operands. -/
theorem validateEventsGiveTheVerdict : Obligations.ValidateEventsGiveTheVerdict := by
  intro raw exptype lo hi stop s hfit hraw hrsp hev
  have hrun := run_validateEvents exptype stop raw lo hi hraw hrsp hev
  have hresponse := lineResponse_of_fits (s.configured exptype stop lo hi (presentLine raw)) hfit
  have hverdict : validate (strip raw) (expType (controlWord exptype stop &&& ctrlMask)) lo hi
      (stopBit (controlWord exptype stop &&& ctrlMask)) = validate (strip raw) exptype lo hi stop := by
    rw [expType_controlWord, stopBit_controlWord]
  refine ⟨_, lineResponse (strip raw) (s.configured exptype stop lo hi (presentLine raw)), hrun, rfl, ?_, ?_, ?_, ?_⟩
  · rw [hresponse, ← hverdict]; rfl
  · rw [hresponse, ← hverdict]; rfl
  · rw [hresponse]; rfl
  · simp [State.complete, State.answered, State.configured, State.rspValid, hraw, hrsp]

section cycle

variable (p : PortInputs) (s : State)

/-- A channel with one event of a place is found whole under that place, and nothing of it under another. -/
theorem filter_cyclePlace {es : List Event} {place : Nat} (h : ∀ e ∈ es, cyclePlace e = place) (k : Nat) :
    es.filter (cyclePlace · == k) = if place = k then es else [] := by
  split
  · rename_i hk
    exact List.filter_eq_self.2 fun e he => beq_iff_eq.2 ((h e he).trans hk)
  · rename_i hk
    exact List.filter_eq_nil_iff.2 fun e he => by simp [h e he, hk]

theorem cyclePlace_of_responseEvent : ∀ e ∈ responseEvents p s, cyclePlace e = 1 := by
  unfold responseEvents
  split <;> simp [cyclePlace]

/-- The configuration channel is idle in a cycle, or writes, or reads (R261). -/
theorem configEvents_cases : configEvents p = [] ∨ configEvents p = [.cfgWrite p.cfgNum p.cfgWdata] ∨
    configEvents p = [.cfgRead p.cfgNum] := by
  unfold configEvents
  cases p.cfgValid <;> cases p.cfgWrite <;> simp

theorem cyclePlace_of_configEvent : ∀ e ∈ configEvents p, cyclePlace e = 4 := by
  rcases configEvents_cases p with h | h | h <;> simp [h, cyclePlace]

/-- The character of a beat, if it brings one (R261). -/
def pushEvents : List Event :=
  if p.recValid && recReady s && !(p.recEmpty && p.recLast) then [.pushChar p.recChar] else []

/-- The end of record of a beat, if it is the last (R261). -/
def endEvents : List Event := if p.recValid && recReady s && p.recLast then [.endRecord] else []

theorem recordEvents_eq : recordEvents p s = pushEvents p s ++ endEvents p s := by
  unfold recordEvents pushEvents endEvents
  cases p.recValid && recReady s
  · rfl
  · cases p.recEmpty && p.recLast <;> rfl

theorem cyclePlace_of_pushEvent : ∀ e ∈ pushEvents p s, cyclePlace e = 2 := by
  unfold pushEvents
  split <;> simp [cyclePlace]

theorem cyclePlace_of_endEvent : ∀ e ∈ endEvents p s, cyclePlace e = 3 := by
  unfold endEvents
  split <;> simp [cyclePlace]

theorem cyclePlace_of_channelEvent {e : Event} (he : e ∈ configEvents p ++ recordEvents p s ++ responseEvents p s) :
    cyclePlace e ≠ 0 := by
  simp only [recordEvents_eq, List.mem_append] at he
  rcases he with (he | he | he) | he
  · simp [cyclePlace_of_configEvent p e he]
  · simp [cyclePlace_of_pushEvent p s e he]
  · simp [cyclePlace_of_endEvent p s e he]
  · simp [cyclePlace_of_responseEvent p s e he]

/-- A reset happens alone (R262). -/
theorem cycleEvents_of_reset (hrst : p.rst = true) : cycleEvents p s = [.reset] := by
  simp [cycleEvents, cycleOrder, hrst]

/-- Without a reset the channels' events happen by place: response, character, end of record, configuration (R262). -/
theorem cycleEvents_of_no_reset (hrst : p.rst = false) :
    cycleEvents p s = responseEvents p s ++ recordEvents p s ++ configEvents p := by
  have hreset : (configEvents p ++ recordEvents p s ++ responseEvents p s).contains .reset = false := by
    rw [List.contains_eq_mem, decide_eq_false_iff_not]
    exact fun he => cyclePlace_of_channelEvent p s he rfl
  rw [cycleEvents, hrst, if_neg Bool.false_ne_true, List.nil_append, cycleOrder, hreset, if_neg Bool.false_ne_true]
  simp [recordEvents_eq, filter_cyclePlace (cyclePlace_of_responseEvent p s),
    filter_cyclePlace (cyclePlace_of_pushEvent p s), filter_cyclePlace (cyclePlace_of_endEvent p s),
    filter_cyclePlace (cyclePlace_of_configEvent p)]

/-- While no response waits, a beat with a line's last character is that character and the end of record. -/
theorem cycleEvents_of_last_character (hrst : p.rst = false) (hvalid : p.recValid = true) (hlast : p.recLast = true)
    (hempty : p.recEmpty = false) (hrsp : s.rsp = none) :
    cycleEvents p s = .pushChar p.recChar :: .endRecord :: configEvents p := by
  have hnone : s.rspValid = false := s.rspValid_eq_false_iff.2 hrsp
  have hresponse : responseEvents p s = [] := by simp [responseEvents, hnone]
  have hrecord : recordEvents p s = [.pushChar p.recChar, .endRecord] := by
    simp [recordEvents, recReady, hvalid, hlast, hempty, hnone]
  rw [cycleEvents_of_no_reset p s hrst, hresponse, hrecord]
  rfl

variable {s} {rest : List Event}

/-- A configuration access leaves the response as it is (R252, R258). -/
theorem run_configEvents (hev : s.events = configEvents p ++ rest) :
    ∃ t, Sys2Proof.core.run (configEvents p).length s = .next t ∧ t.rsp = s.rsp := by
  rcases configEvents_cases p with h | h | h <;> rw [h] at hev ⊢
  · exact ⟨s, rfl, rfl⟩
  · exact ⟨_, run_of_enabled hev (enabled_cfgWrite ..) 0, State.cfgWrite_rsp ..⟩
  · exact ⟨_, run_of_enabled hev (enabled_cfgRead ..) 0, rfl⟩

/-- The last character of a line and the end of record, with no response waiting (R253, R254). -/
theorem run_lastCharacter {c : Byte} (hrsp : s.rsp = none) (hev : s.events = .pushChar c :: .endRecord :: rest) (n : Nat) :
    Sys2Proof.core.run (n + 1 + 1) s =
      Sys2Proof.core.run n (State.respond { s with raw := s.raw ++ [c], events := rest } (strip (s.raw ++ [c]))) := by
  have hnone : s.rspValid = false := s.rspValid_eq_false_iff.2 hrsp
  have hpush : enabled (.pushChar c) s = true := by rw [enabled_pushChar, hnone, Bool.not_false]
  rw [run_of_enabled hev hpush]
  exact run_of_enabled (s := after (.pushChar c) { s with events := .endRecord :: rest }) rfl hpush n

end cycle

/-- Settles O52: the order of the channels, and the run over a last character's cycle, in which the configuration access
comes when the response is already held. -/
theorem clockCycleOrdersItsEvents : Obligations.ClockCycleOrdersItsEvents := by
  intro p s
  refine ⟨cycleEvents_of_reset p s, cycleEvents_of_no_reset p s, fun hrst hvalid hlast hempty hrsp => ?_⟩
  have horder := cycleEvents_of_last_character p s hrst hvalid hlast hempty hrsp
  have hev : (s.withCycle p).events = .pushChar p.recChar :: .endRecord :: (configEvents p ++ s.events) := by
    rw [State.withCycle, horder]; rfl
  have hlength : (cycleEvents p s).length = (configEvents p).length + 1 + 1 := by rw [horder]; rfl
  obtain ⟨t, hrun, ht⟩ := run_configEvents p (rest := s.events) (s := State.respond
    { s.withCycle p with raw := s.raw ++ [p.recChar], events := configEvents p ++ s.events }
    (strip (s.raw ++ [p.recChar]))) rfl
  refine ⟨horder, t, ?_, ht.trans ?_⟩
  · rw [hlength, run_lastCharacter (s := s.withCycle p) hrsp hev]
    exact hrun
  · exact congrArg some (lineResponse_congr _ rfl rfl rfl rfl)

end Sys2Proof.Machine

/-! The annex's flash image (45_downstream_flash_image.md). A write within the 32-bit space is said once, as an `↔`, with the
bytes it leaves; from it and the canonical form come its bounds, its repetition and its order. Then what one response does
to a load, and what an erased image is. Last the checksum, whose difference is linear in the difference of the buffers. -/

namespace Sys2Proof.Machine

section writing

/-- The image with `data` from index `i` on (R284). -/
def FlashImage.overwrite (img : FlashImage) (i : Nat) (data : List Byte) : FlashImage :=
  { img with cells := Memory.writeBytes img.fillByte img.cells i data }

variable {img img' : FlashImage} {x : Word} {ds : List Byte} {n : Word}

/-- A write within the 32-bit space, in natural numbers: the bytes go to the distance of the address from the first
(R284). -/
theorem FlashImage.write_of_space (hspace : img.offset.toNat + img.size.toNat ≤ 2 ^ 32) : img.write x ds =
    if img.offset.toNat ≤ x.toNat ∧ x.toNat + ds.length ≤ img.offset.toNat + img.size.toNat then
      some (img.overwrite (x.toNat - img.offset.toNat) ds, BitVec.ofNat 32 ds.length)
    else none := by
  have hindex : (img.index x).toNat = x.toNat - img.offset.toNat := by rw [FlashImage.index]; omega
  simp only [FlashImage.write, FlashImage.not_oversize hspace, Bool.false_eq_true, if_false, FlashImage.inBounds_iff,
    hindex, FlashImage.overwrite]

/-- Within the 32-bit space a write fails exactly outside the image (R284). -/
theorem FlashImage.write_eq_none_iff (hspace : img.offset.toNat + img.size.toNat ≤ 2 ^ 32) :
    img.write x ds = none ↔
      x.toNat < img.offset.toNat ∨ img.offset.toNat + img.size.toNat < x.toNat + ds.length := by
  rw [FlashImage.write_of_space hspace, ite_eq_right_iff]
  simp only [reduceCtorEq, imp_false]
  omega

/-- Within the 32-bit space a write succeeds exactly inside the image (R284). -/
theorem FlashImage.write_eq_some_iff (hspace : img.offset.toNat + img.size.toNat ≤ 2 ^ 32) :
    img.write x ds = some (img', n) ↔ ∃ i, x.toNat = img.offset.toNat + i ∧ i + ds.length ≤ img.size.toNat ∧
      img' = img.overwrite i ds ∧ n = BitVec.ofNat 32 ds.length := by
  simp only [FlashImage.write_of_space hspace, Option.ite_none_right_eq_some, Option.some.injEq, Prod.mk.injEq]
  constructor
  · rintro ⟨⟨hlo, hhi⟩, rfl, rfl⟩
    exact ⟨x.toNat - img.offset.toNat, by omega, by omega, rfl, rfl⟩
  · rintro ⟨i, hat, hfit, rfl, rfl⟩
    have hi : x.toNat - img.offset.toNat = i := by omega
    exact ⟨⟨by omega, by omega⟩, by rw [hi], rfl⟩

/-- What a write leaves to be read: its bytes in their places, the rest as before. -/
theorem FlashImage.byteAt_overwrite (hwf : img.wf = true) (i : Nat) (ds : List Byte) (k : Nat) :
    (img.overwrite i ds).byteAt k = if i ≤ k then ds[k - i]?.getD (img.byteAt k) else img.byteAt k :=
  Memory.read_writeBytes img.cells i ds k (img.wf_iff.1 hwf).1

/-- Images in canonical form of one geometry and fill byte that read alike are one. -/
theorem FlashImage.ext_of_byteAt (hwf : img.wf = true) (hwf' : img'.wf = true) (hoffset : img.offset = img'.offset)
    (hsize : img.size = img'.size) (hfill : img.fillByte = img'.fillByte)
    (hbytes : ∀ k, img.byteAt k = img'.byteAt k) : img = img' := by
  obtain ⟨offset, size, fill, cells⟩ := img
  obtain ⟨offset', size', fill', cells'⟩ := img'
  obtain rfl : offset = offset' := hoffset
  obtain rfl : size = size' := hsize
  obtain rfl : fill = fill' := hfill
  obtain ⟨hcells, -⟩ := (FlashImage.wf_iff _).1 hwf
  obtain ⟨hcells', -⟩ := (FlashImage.wf_iff _).1 hwf'
  obtain rfl : cells = cells' := Memory.ext_of_read hcells hcells' hbytes
  rfl

theorem FlashImage.overwrite_wf {i : Nat} (hwf : img.wf = true) (hfit : i + ds.length ≤ img.size.toNat) :
    (img.overwrite i ds).wf = true := by
  obtain ⟨hcells, hwithin⟩ := img.wf_iff.1 hwf
  exact (FlashImage.wf_iff _).2 ⟨Memory.wf_writeBytes i ds hcells, Memory.within_writeBytes hfit hwithin⟩

/-- Overwriting the same bytes again changes nothing (R291). -/
theorem FlashImage.overwrite_overwrite_same {i : Nat} (hwf : img.wf = true) (hfit : i + ds.length ≤ img.size.toNat) :
    (img.overwrite i ds).overwrite i ds = img.overwrite i ds := by
  have hwf' := FlashImage.overwrite_wf hwf hfit
  refine FlashImage.ext_of_byteAt (FlashImage.overwrite_wf hwf' hfit) hwf' rfl rfl rfl fun k => ?_
  rw [FlashImage.byteAt_overwrite hwf', FlashImage.byteAt_overwrite hwf]
  split
  · cases ds[k - i]? <;> rfl
  · rfl

/-- A write that succeeded succeeds again and changes nothing (R291). -/
theorem FlashImage.write_write_same (hwf : img.wf = true) (hspace : img.offset.toNat + img.size.toNat ≤ 2 ^ 32)
    (hwrite : img.write x ds = some (img', n)) : img'.write x ds = some (img', n) := by
  obtain ⟨i, hat, hfit, rfl, rfl⟩ := (FlashImage.write_eq_some_iff hspace).1 hwrite
  exact (FlashImage.write_eq_some_iff (img := img.overwrite i ds) hspace).2
    ⟨i, hat, hfit, (FlashImage.overwrite_overwrite_same hwf hfit).symm, rfl⟩

/-- Overwriting two ranges that do not meet gives one image in either order (R291). -/
theorem FlashImage.overwrite_comm {i j : Nat} {es : List Byte} (hwf : img.wf = true) (hdisjoint : i + ds.length ≤ j)
    (hfit : j + es.length ≤ img.size.toNat) :
    (img.overwrite i ds).overwrite j es = (img.overwrite j es).overwrite i ds := by
  have hfit' : i + ds.length ≤ img.size.toNat := by omega
  have hwf₁ := FlashImage.overwrite_wf hwf hfit'
  have hwf₂ := FlashImage.overwrite_wf hwf hfit
  refine FlashImage.ext_of_byteAt (FlashImage.overwrite_wf hwf₁ hfit) (FlashImage.overwrite_wf hwf₂ hfit')
    rfl rfl rfl fun k => ?_
  simp only [FlashImage.byteAt_overwrite hwf₁, FlashImage.byteAt_overwrite hwf₂, FlashImage.byteAt_overwrite hwf]
  rcases Nat.lt_or_ge k j with hk | hk
  · simp only [if_neg (Nat.not_le.2 hk)]
  · have hpast : ds[k - i]? = none := List.getElem?_eq_none (by omega)
    simp [hpast]

@[simp] theorem FlashImage.buffer_length : img.buffer.length = img.size.toNat := by simp [FlashImage.buffer]

theorem FlashImage.getElem?_buffer (k : Nat) :
    img.buffer[k]? = if k < img.size.toNat then some (img.byteAt k) else none := by
  split
  next hk => simp [FlashImage.buffer, hk]
  next hk => exact List.getElem?_eq_none (by simpa using hk)

/-- `write` puts its bytes into the buffer and leaves the bytes before and after them (R284). -/
theorem FlashImage.buffer_overwrite {i : Nat} (hwf : img.wf = true) (hfit : i + ds.length ≤ img.size.toNat) :
    (img.overwrite i ds).buffer = img.buffer.take i ++ ds ++ img.buffer.drop (i + ds.length) := by
  have htake : (img.buffer.take i).length = i := by rw [List.length_take, FlashImage.buffer_length]; omega
  have hsize : (img.overwrite i ds).size = img.size := rfl
  refine List.ext_getElem? fun k => ?_
  rw [FlashImage.getElem?_buffer, FlashImage.byteAt_overwrite hwf, hsize]
  rcases Nat.lt_or_ge k i with hbefore | hfrom
  · have hk : k < img.size.toNat := by omega
    rw [List.append_assoc, List.getElem?_append_left (by omega), List.getElem?_take_of_lt hbefore,
      FlashImage.getElem?_buffer, if_neg (Nat.not_le.2 hbefore)]
  rcases Nat.lt_or_ge k (i + ds.length) with hin | hpast
  · have hk : k < img.size.toNat := by omega
    have hoff : k - i < ds.length := by omega
    rw [List.append_assoc, List.getElem?_append_right (by omega), htake, List.getElem?_append_left hoff, if_pos hk,
      if_pos hfrom, List.getElem?_eq_getElem hoff, Option.getD_some]
  · have hnone : ds[k - i]? = none := List.getElem?_eq_none (by omega)
    have hk : i + ds.length + (k - (i + ds.length)) = k := by omega
    have hlength : (img.buffer.take i ++ ds).length = i + ds.length := by rw [List.length_append, htake]
    rw [List.getElem?_append_right (by omega), hlength, List.getElem?_drop, hk, FlashImage.getElem?_buffer, if_pos hfrom,
      hnone, Option.getD_none]

end writing

/-- Settles O53: the bounds of the integer index are those of `write_eq_none_iff` and `write_eq_some_iff`, and byte `k` of
the data is read back at `index + k`. -/
theorem imageWriteIsBoundsChecked : Obligations.ImageWriteIsBoundsChecked := by
  intro img address data hwf hspace index
  refine ⟨fun hout => ?_, fun hlo hhi => ?_⟩
  · rw [FlashImage.write_eq_none_iff hspace]
    omega
  · obtain ⟨i, hi⟩ := Int.eq_ofNat_of_zero_le hlo
    have hat : address.toNat = img.offset.toNat + i := by omega
    have hfit : i + data.length ≤ img.size.toNat := by omega
    refine ⟨img.overwrite i data, (FlashImage.write_eq_some_iff hspace).2 ⟨i, hat, hfit, rfl, rfl⟩, rfl, rfl, rfl,
      fun k => ?_⟩
    rw [FlashImage.byteAt_overwrite hwf, hi]
    by_cases hin : i ≤ k ∧ k < i + data.length
    · have hk : k - i < data.length := by omega
      have hoff : ((k : Int) - (i : Int)).toNat = k - i := by omega
      rw [if_pos hin.1, if_pos (by omega), hoff, List.getElem?_eq_getElem hk, List.getD_eq_getElem _ _ hk,
        Option.getD_some]
    · rw [if_neg (by omega : ¬((i : Int) ≤ k ∧ (k : Int) < i + data.length))]
      split
      · rw [List.getElem?_eq_none (by omega), Option.getD_none]
      · rfl

/-- Settles O57: each write is an overwrite at its own index, and those commute. -/
theorem disjointWritesCommute : Obligations.DisjointWritesCommute := by
  intro img a b ab ba x y dx dy n m n' m' hwf hspace hdisjoint ha hab hb hba
  obtain ⟨i, hi, -, rfl, rfl⟩ := (FlashImage.write_eq_some_iff hspace).1 ha
  obtain ⟨j, hj, hfit, rfl, rfl⟩ := (FlashImage.write_eq_some_iff hspace).1 hb
  obtain ⟨j', hj', -, rfl, rfl⟩ := (FlashImage.write_eq_some_iff (img := img.overwrite i dx) hspace).1 hab
  obtain ⟨i', hi', -, rfl, rfl⟩ := (FlashImage.write_eq_some_iff (img := img.overwrite j dy) hspace).1 hba
  obtain rfl : j' = j := Nat.add_left_cancel (hj'.symm.trans hj)
  obtain rfl : i' = i := Nat.add_left_cancel (hi'.symm.trans hi)
  exact ⟨FlashImage.overwrite_comm hwf (by omega) hfit, rfl, rfl⟩

section loading

/-- The load stops at this response: it is no result, or its write fails (R285). -/
def FlashImage.stopsAt (img : FlashImage) (r : Response) : Prop :=
  r.loadable = false ∨ ∃ a ds, r.outcome = some (.decoded a ds) ∧ img.write a ds = none

variable {img : FlashImage} {r : Response}

/-- No result: an overrun or a decoder error (R285, R366). -/
theorem Response.loadable_eq_false_iff :
    r.loadable = false ↔ r.outcome = none ∨ ∃ e, r.outcome = some (.error e) := by
  unfold Response.loadable Response.dKind
  split <;> rename_i ho <;> simp [ho]

/-- A response that stops the load leaves the image, and is reported by its index, whatever follows (R285, R289). -/
theorem FlashImage.applyResponses_of_stopsAt (h : img.stopsAt r) : ∃ report : LoadReport, report.ridx = r.ridx ∧
    ∀ total rest, img.applyResponses total (r :: rest) = { image := img, result := .aborted report } := by
  rw [FlashImage.stopsAt, Response.loadable_eq_false_iff] at h
  rcases h with (ho | ⟨e, ho⟩) | ⟨a, ds, ho, hw⟩
  · exact ⟨⟨.overrun, r.ridx, none⟩, rfl, by simp [FlashImage.applyResponses, ho]⟩
  · exact ⟨⟨.decodeError e, r.ridx, r.xAddr⟩, rfl, by simp [FlashImage.applyResponses, ho]⟩
  · exact ⟨⟨.writeBoundsError, r.ridx, some a⟩, rfl, by simp [FlashImage.applyResponses, ho, hw]⟩

/-- Any other response is skipped or written, and the load goes on with the rest (R285). -/
theorem FlashImage.applyResponses_of_not_stopsAt (h : ¬ img.stopsAt r) : ∃ img' n,
    (img' = img ∨ ∃ a ds w, img.write a ds = some (img', w)) ∧
      ∀ total rest, img.applyResponses total (r :: rest) = img'.applyResponses (total + n) rest := by
  match ho : r.outcome with
  | none => exact absurd (.inl (Response.loadable_eq_false_iff.2 (.inl ho))) h
  | some (.error e) => exact absurd (.inl (Response.loadable_eq_false_iff.2 (.inr ⟨e, ho⟩))) h
  | some .skip => exact ⟨img, 0, .inl rfl, by simp [FlashImage.applyResponses, ho]⟩
  | some (.decoded a ds) =>
    match hw : img.write a ds with
    | none => exact absurd (.inr ⟨a, ds, ho, hw⟩) h
    | some (img', n) => exact ⟨img', n.toNat, .inr ⟨a, ds, n, hw⟩, by simp [FlashImage.applyResponses, ho, hw]⟩

end loading

/-- Settles O54: a response leaves the image or writes to it, and `write_keeps` is said of every write. -/
theorem loadingKeepsTheImageWellFormed : Obligations.LoadingKeepsTheImageWellFormed := by
  intro rs
  induction rs with
  | nil => exact fun img total hwf => ⟨hwf, rfl, rfl, rfl⟩
  | cons r rs ih =>
    intro img total hwf
    by_cases hstop : img.stopsAt r
    · obtain ⟨report, -, hload⟩ := FlashImage.applyResponses_of_stopsAt hstop
      rw [hload]
      exact ⟨hwf, rfl, rfl, rfl⟩
    · obtain ⟨img', n, hstep, hload⟩ := FlashImage.applyResponses_of_not_stopsAt hstop
      rw [hload]
      rcases hstep with rfl | ⟨a, ds, w, hw⟩
      · exact ih img' _ hwf
      · obtain ⟨hwf', hoffset, hsize, hfill⟩ := FlashImage.write_keeps hwf hw
        rw [← hoffset, ← hsize, ← hfill]
        exact ih img' _ hwf'

/-- Settles O58: a completed load has passed every response before the one it stops at. -/
theorem abortedLoadKeepsEarlierWrites : Obligations.AbortedLoadKeepsEarlierWrites := by
  intro before rest bad
  induction before with
  | nil =>
    intro img total _ upTo hbad
    obtain ⟨report, hridx, hload⟩ := FlashImage.applyResponses_of_stopsAt (img := upTo) hbad
    exact ⟨report, hload total rest, hridx⟩
  | cons r before ih =>
    intro img total hdone
    by_cases hstop : img.stopsAt r
    · obtain ⟨report, -, hload⟩ := FlashImage.applyResponses_of_stopsAt hstop
      simp [hload] at hdone
    · obtain ⟨img', n, -, hload⟩ := FlashImage.applyResponses_of_not_stopsAt hstop
      rw [hload] at hdone
      rw [List.cons_append, hload, hload]
      exact ih img' _ hdone

/-- The responses among replies that are all responses. -/
@[simp] theorem responsesOf_map_response (rs : List Response) : responsesOf (rs.map .response) = rs := by
  induction rs with
  | nil => rfl
  | cons r rs ih => exact congrArg (r :: ·) ih

/-- Settles O59: the run over the presented lines ends at rest, and its replies are the responses `loadFile` applies. -/
theorem loadFileIsTheRunOfTheBlock : Obligations.LoadFileIsTheRunOfTheBlock := by
  intro raws s img hraw hrsp hreplies hev
  have hrun := run_presentLines (rest := []) raws hraw hrsp (by rw [hev, List.append_nil])
  refine ⟨s.answered raws [], hev ▸ hrun, ?_, ?_⟩
  · simp [State.complete, State.answered, State.rspValid, hraw, hrsp]
  · simp [FlashImage.loadFile, State.answered, hreplies]

section erasing

variable (img : FlashImage)

@[simp] theorem FlashImage.byteAt_erase (k : Nat) : img.erase.byteAt k = img.fillByte := rfl

/-- The buffer after `erase` is the fill byte, `size` times (R282). -/
theorem FlashImage.buffer_erase : img.erase.buffer = List.replicate img.size.toNat img.fillByte := by
  have hsize : img.erase.size = img.size := rfl
  refine List.eq_replicate_iff.2 ⟨by simp [FlashImage.buffer, hsize], fun b hb => ?_⟩
  obtain ⟨k, -, rfl⟩ := List.mem_map.1 hb
  exact img.byteAt_erase k

end erasing

/-- Settles O55: an erased image keeps only its geometry and fill byte, and these give its buffer. -/
theorem eraseForgetsTheLoadHistory : Obligations.EraseForgetsTheLoadHistory := by
  refine fun img p => ⟨rfl, rfl, rfl, rfl, img.byteAt_erase, img.buffer_erase, fun img' hsize hfill => ?_⟩
  rw [FlashImage.checksumWith, FlashImage.checksumWith, img'.buffer_erase, img.buffer_erase, hsize, hfill]

section checksum

/-- The register's step is linear. -/
theorem crcShift_xor (r r' : BitVec 16) : crcShift (r ^^^ r') = crcShift r ^^^ crcShift r' := by
  unfold crcShift
  rw [BitVec.msb_xor, BitVec.shiftLeft_xor_distrib]
  cases r.msb <;> cases r'.msb
  case true.true =>
    have hcancel : (r <<< 1 ^^^ crcPoly) ^^^ (r' <<< 1 ^^^ crcPoly) =
        (r <<< 1 ^^^ r' <<< 1) ^^^ (crcPoly ^^^ crcPoly) := by ac_rfl
    simpa using hcancel.symm
  case true.false =>
    show (r <<< 1 ^^^ r' <<< 1) ^^^ crcPoly = (r <<< 1 ^^^ crcPoly) ^^^ r' <<< 1
    ac_rfl
  case false.true => exact BitVec.xor_assoc _ _ _
  case false.false => rfl

theorem crcShifts_xor (n : Nat) (r r' : BitVec 16) : crcShifts n (r ^^^ r') = crcShifts n r ^^^ crcShifts n r' := by
  induction n generalizing r r' with
  | zero => rfl
  | succ n ih => rw [crcShifts, crcShift_xor, ih]; rfl

/-- The polynomial has its constant term, so no register but 0 is shifted to 0. -/
theorem crcShift_eq_zero {r : BitVec 16} (h : crcShift r = 0#16) : r = 0#16 := by
  unfold crcShift at h
  split at h
  · have hbit := congrArg (·.getLsbD 0) h
    simp [crcPoly] at hbit
  · rename_i hmsb
    rw [Bool.not_eq_true, BitVec.msb_eq_false_iff_two_mul_lt] at hmsb
    bv_omega

theorem crcShifts_eq_zero {n : Nat} {r : BitVec 16} (h : crcShifts n r = 0#16) : r = 0#16 := by
  induction n generalizing r with
  | zero => exact h
  | succ n ih => exact crcShift_eq_zero (ih h)

variable (p : CrcParams)

/-- A byte's step is linear in the register and the byte together, reflected or not. -/
theorem crcByte_xor (r r' : BitVec 16) (b b' : Byte) :
    crcByte p (r ^^^ r') (b ^^^ b') = crcByte p r b ^^^ crcByte p r' b' := by
  have hreverse : (b ^^^ b').reverse = b.reverse ^^^ b'.reverse := by
    ext i hi
    simp [BitVec.getElem_reverse, BitVec.getMsbD_xor]
  rw [crcByte, crcByte, crcByte, ← crcShifts_xor, hreverse]
  congr 1
  split
  · rw [BitVec.setWidth_xor, BitVec.shiftLeft_xor_distrib]; ac_rfl
  · rw [BitVec.setWidth_xor, BitVec.shiftLeft_xor_distrib]; ac_rfl

/-- Registers fed byte sequences of one length differ by the register fed the sequences' difference. -/
theorem foldl_crcByte_xor {bs bs' : List Byte} (hlen : bs.length = bs'.length) (r r' : BitVec 16) :
    bs.foldl (crcByte p) r ^^^ bs'.foldl (crcByte p) r' =
      (List.zipWith (· ^^^ ·) bs bs').foldl (crcByte p) (r ^^^ r') := by
  induction bs generalizing bs' r r' with
  | nil =>
    obtain rfl : bs' = [] := List.length_eq_zero_iff.1 hlen.symm
    rfl
  | cons b bs ih =>
    match bs', hlen with
    | b' :: bs', hlen =>
      have hlen' : bs.length = bs'.length := Nat.succ.inj hlen
      rw [List.foldl_cons, List.foldl_cons, List.zipWith_cons_cons, List.foldl_cons, crcByte_xor]
      exact ih hlen' (crcByte p r b) (crcByte p r' b')

/-- R291: sequences of one length have one CRC exactly when their difference leaves no remainder. -/
theorem crc16_eq_iff {bs bs' : List Byte} (hlen : bs.length = bs'.length) :
    crc16 p bs = crc16 p bs' ↔ (List.zipWith (· ^^^ ·) bs bs').foldl (crcByte p) 0#16 = 0#16 := by
  have hdiff := foldl_crcByte_xor p hlen p.init p.init
  rw [BitVec.xor_self] at hdiff
  rw [← hdiff, BitVec.xor_eq_zero_iff, crc16, crc16, BitVec.xor_left_inj]
  split
  · exact ⟨fun h => by simpa using congrArg BitVec.reverse h, congrArg BitVec.reverse⟩
  · rfl

/-- Zeros after it do not bring a register back to 0. -/
theorem foldl_crcByte_zeros_eq_zero {n : Nat} {r : BitVec 16}
    (h : (List.replicate n 0#8).foldl (crcByte p) r = 0#16) : r = 0#16 := by
  induction n generalizing r with
  | zero => exact h
  | succ n ih =>
    have hbyte : crcByte p r 0#8 = crcShifts 8 r := by
      have hreverse : (0#8).reverse = 0#8 := BitVec.reverse_eq_zero_iff.2 rfl
      simp [crcByte, hreverse]
    exact crcShifts_eq_zero (hbyte ▸ ih h)

/-- Sequences that differ at their beginning only have one CRC only if the beginnings' difference leaves no remainder. -/
theorem difference_of_crc16_append_eq {bs bs' tail : List Byte} (hlen : bs.length = bs'.length)
    (h : crc16 p (bs ++ tail) = crc16 p (bs' ++ tail)) :
    (List.zipWith (· ^^^ ·) bs bs').foldl (crcByte p) 0#16 = 0#16 := by
  have hzeros : List.zipWith (· ^^^ ·) tail tail = List.replicate tail.length 0#8 := by simp [List.zipWith_self]
  rw [crc16_eq_iff p (by simp [hlen]), List.zipWith_append hlen, hzeros, List.foldl_append] at h
  exact foldl_crcByte_zeros_eq_zero p h

/-- What `F5 F4 F3`, as it is and reflected, leaves in the register: R291's remainders after 16 more shifts. -/
theorem foldl_crcByte_difference :
    [0xF5#8, 0xF4#8, 0xF3#8].foldl (crcByte p) 0#16 = if p.refIn then 0xAFD6#16 else 0x08DB#16 := by
  cases h : p.refIn
  · have h₁ : crcByte p 0#16 0xF5#8 = 0xBFBA#16 := by rw [crcByte, h]; decide
    have h₂ : crcByte p 0xBFBA#16 0xF4#8 = 0x43AF#16 := by rw [crcByte, h]; decide
    have h₃ : crcByte p 0x43AF#16 0xF3#8 = 0x08DB#16 := by rw [crcByte, h]; decide
    simp [h₁, h₂, h₃]
  · have h₁ : crcByte p 0#16 0xF5#8 = 0x4405#16 := by rw [crcByte, h]; decide
    have h₂ : crcByte p 0x4405#16 0xF4#8 = 0xD8CD#16 := by rw [crcByte, h]; decide
    have h₃ : crcByte p 0xD8CD#16 0xF3#8 = 0xAFD6#16 := by rw [crcByte, h]; decide
    simp [h₁, h₂, h₃]

/-- An image that begins with three erased bytes has another checksum once `0A 0B 0C` is written over them (R291). -/
theorem FlashImage.checksumWith_overwrite_ne {img : FlashImage} {tail : List Byte} (hwf : img.wf = true)
    (hbuffer : img.buffer = [0xFF#8, 0xFF#8, 0xFF#8] ++ tail) :
    (img.overwrite 0 [0x0A#8, 0x0B#8, 0x0C#8]).checksumWith p ≠ img.checksumWith p := by
  have hfit : 0 + [0x0A#8, 0x0B#8, 0x0C#8].length ≤ img.size.toNat := by
    simp [← img.buffer_length, hbuffer]
  have hwritten : (img.overwrite 0 [0x0A#8, 0x0B#8, 0x0C#8]).buffer = [0x0A#8, 0x0B#8, 0x0C#8] ++ tail := by
    rw [FlashImage.buffer_overwrite hwf hfit, hbuffer]
    rfl
  rw [FlashImage.checksumWith, FlashImage.checksumWith, hwritten, hbuffer]
  intro hsame
  have hzero : [0xF5#8, 0xF4#8, 0xF3#8].foldl (crcByte p) 0#16 = 0#16 :=
    difference_of_crc16_append_eq p (bs := [0x0A#8, 0x0B#8, 0x0C#8]) (bs' := [0xFF#8, 0xFF#8, 0xFF#8]) rfl hsame
  rw [foldl_crcByte_difference] at hzero
  split at hzero <;> cases hzero

end checksum

/-- Settles O56: the fresh image is erased, so its buffer begins with `FF FF FF`. -/
theorem contentChangesTheChecksum : Obligations.ContentChangesTheChecksum := by
  intro offset size p hsize hspace
  obtain ⟨m, hm⟩ := Nat.exists_eq_add_of_le hsize
  have hwf : (FlashImage.constructDefault offset size).wf = true := rfl
  have hbuffer : (FlashImage.constructDefault offset size).buffer =
      [0xFF#8, 0xFF#8, 0xFF#8] ++ List.replicate m 0xFF#8 := by
    refine (FlashImage.constructDefault offset size).buffer_erase.trans ?_
    exact (congrArg (List.replicate · 0xFF#8) hm).trans List.replicate_append_replicate.symm
  have hwrite := (FlashImage.write_eq_some_iff (x := offset) (ds := [0x0A#8, 0x0B#8, 0x0C#8])
    (img := FlashImage.constructDefault offset size) hspace).2 ⟨0, rfl, hsize, rfl, rfl⟩
  exact ⟨_, hwrite, FlashImage.checksumWith_overwrite_ne p hwf hbuffer, FlashImage.write_write_same hwf hspace hwrite⟩

end Sys2Proof.Machine

/-! Reset (70_reset_and_hazards.md). `CTRL` at reset expects type 0, which no data record has, and the window from `RMIN` to
`RMAX` holds no address, so of a data record both FormatCheck and AddressCheck fail; a non-data record has no part in
either. -/

namespace Sys2Proof.Machine

section failClosed

variable {ln : Line} {t : BitVec 4}

/-- No data record has type 0, so with `EXPTYPE = 0` FormatCheck fails (R132, R361). -/
theorem formatCheck_of_data_expecting_zero (ht : recType ln = some t) (hd : isData t = true) :
    formatCheck ln 0#4 = false := by
  have hne : t ≠ 0#4 := by rintro rfl; cases hd
  rw [formatCheck_of_data ht hd, bne_iff_ne.2 hne, Bool.not_true]

/-- With `RMIN > RMAX` no address is in the window, so AddressCheck fails (R134, R361). -/
theorem addressCheck_of_data_empty_window {rmin rmax : Word} (ht : recType ln = some t) (hd : isData t = true)
    (hempty : rmax.toNat < rmin.toNat) : addressCheck ln rmin rmax = false := by
  rw [← Bool.not_eq_true, addressCheck_iff_extractAddr]
  rintro ⟨t', ht', hwindow⟩
  obtain rfl : t = t' := Option.some.inj (ht.symm.trans ht')
  obtain ⟨a, -, hlo, hhi⟩ := hwindow hd
  omega

/-- A non-data record is `OK` under any configuration exactly when it is well formed (R100, R142). -/
theorem validate_vOk_iff_wellFormed_of_nonData {exptype : BitVec 4} {rmin rmax : Word} {stop : Bool}
    (ht : recType ln = some t) (hd : isData t = false) :
    (validate ln exptype rmin rmax stop).vOk = true ↔ wellFormedRecord ln = true := by
  refine (okMeansWellFormedInTheWindow ln exptype rmin rmax stop).trans (and_iff_left fun t' ht' hd' => ?_)
  obtain rfl : t = t' := Option.some.inj (ht.symm.trans ht')
  rw [hd] at hd'
  cases hd'

end failClosed

/-- Settles O49: at reset `STOP = 0`, so the reasons of a data record show both checks that the configuration makes
fail. -/
theorem resetConfigurationIsFailClosed : Obligations.ResetConfigurationIsFailClosed := by
  refine fun ln t ht => ⟨fun hd => ?_, validate_vOk_iff_wellFormed_of_nonData ht⟩
  have hfmt : formatCheck ln (expType State.reset.ctrl) = false := formatCheck_of_data_expecting_zero ht hd
  have hrng : addressCheck ln State.reset.rmin State.reset.rmax = false :=
    addressCheck_of_data_empty_window ht hd (by decide)
  obtain ⟨hbit0, -, hbit2, -⟩ := collectModeReportsEveryFailure ln (expType State.reset.ctrl) State.reset.rmin
    State.reset.rmax
  rw [hfmt] at hbit0
  rw [hrng] at hbit2
  refine ⟨?_, hbit0, hbit2⟩
  rw [← Bool.not_eq_true, validate_vOk_iff, hfmt]
  exact fun h => Bool.false_ne_true h.1

/-- Settles O2: the reset event is `State.resetBlock`, which takes from the old state only the script and the replies. -/
theorem resetEventRestoresTheResetState : Obligations.ResetEventRestoresTheResetState := by
  intro s
  rw [perform_eq, after, State.resetBlock]

end Sys2Proof.Machine
